-- ==== Sys2Proof/Word.lean ====
section
/-!
DEFINITION. Words and the parameter forms made of them.

An address counts words, not bytes, and is a natural number (20_memory.md R44, R45).
-/

namespace Sys2Proof

/-- A memory cell, raw operand, value, `rb`, latch, queue entry or `lastOutput`: a 64-bit signed
word (00_scope.md R8). Its signed value is `BitVec.toInt`; the bit pattern is two's complement
(R11), which nothing of the machine exposes. -/
abbrev Word := BitVec 64

/-- The parameter modes (30_encoding.md R68). -/
inductive Mode where
  | position
  | immediate
  | relative
  deriving DecidableEq, Repr

/-- The modes a write parameter may have: immediate is not one of them (30_encoding.md R70). -/
inductive WriteMode where
  | position
  | relative
  deriving DecidableEq, Repr

/-- A value parameter: its mode and its raw operand, a whole word (30_encoding.md R74, R79). -/
structure ValueParam where
  mode : Mode
  raw : Word
  deriving DecidableEq, Repr

/-- A write parameter: its mode and its raw operand (30_encoding.md R70, R77). -/
structure WriteParam where
  mode : WriteMode
  raw : Word
  deriving DecidableEq, Repr

end Sys2Proof
end

