-- ==== Sys2Proof/Config.lean ====
section
/-!
DEFINITION. The implementation parameters of 00_scope.md R8.

A configuration is one choice of every parameter. The machine never changes it; `State` carries it
(DESIGN CHOICE, assumption log 2, safe), and every statement holds for every configuration.
-/

namespace Sys2Proof

/-- `JUMP_TARGET`: how a jump's target parameter is resolved (30_encoding.md R78; 90_conflicts.md
C1 keeps both readings). -/
inductive JumpTarget where
  | value
  | address
  deriving DecidableEq, Repr

/-- `OVERFLOW_MODE` (00_scope.md R12). -/
inductive OverflowMode where
  | fault
  | wrap
  deriving DecidableEq, Repr

/-- `EXCESS_DIGIT_MODE` (30_encoding.md R71). -/
inductive ExcessDigitMode where
  | fault
  | ignore
  deriving DecidableEq, Repr

/-- `POST_HALT_STEP` (40_execution_cycle.md R97). -/
inductive PostHaltStep where
  | noop
  | error
  deriving DecidableEq, Repr

/-- One choice of every parameter of 00_scope.md R8. `inqDepth = none` is `UNBOUNDED`. -/
structure Config where
  memCapacity : Nat
  inqDepth : Option Nat
  jumpTarget : JumpTarget
  overflowMode : OverflowMode
  excessDigitMode : ExcessDigitMode
  postHaltStep : PostHaltStep
  deriving DecidableEq, Repr

namespace Config

/-- The defaults of 00_scope.md R8. `MEM_CAPACITY` is OPEN there (20_memory.md R46); this value is
the largest R46 allows (DESIGN CHOICE, assumption log 3, unsafe for a claim that uses it). -/
def default : Config where
  memCapacity := 2 ^ 63
  inqDepth := none
  jumpTarget := .value
  overflowMode := .fault
  excessDigitMode := .fault
  postHaltStep := .noop

/-- The bounds 20_memory.md R46 puts on `MEM_CAPACITY`. -/
abbrev wf (c : Config) : Prop :=
  1 ≤ c.memCapacity ∧ c.memCapacity ≤ 2 ^ 63

end Config

end Sys2Proof
end

