-- ==== Sys2Proof/Syntax.lean ====
section
/-!
DEFINITION. The instructions, one constructor per row of spec/opcode_table.json, and the
spellings 30_encoding.md R87 and R88 give them.
-/

namespace Sys2Proof

/-- The ten instructions (00_scope.md R2; 30_encoding.md R72, R80), under the source's names. A
jump's `target` is written as a value parameter in both settings of `JUMP_TARGET`; under
`ADDRESS` an immediate one is ill-formed (WellFormed.lean). -/
inductive Instr where
  | add (a b : ValueParam) (dst : WriteParam)
  | mul (a b : ValueParam) (dst : WriteParam)
  | input (dst : WriteParam)
  | output (a : ValueParam)
  | jumpIfTrue (cond target : ValueParam)
  | jumpIfFalse (cond target : ValueParam)
  | lessThan (a b : ValueParam) (dst : WriteParam)
  | equals (a b : ValueParam) (dst : WriteParam)
  | adjustBase (a : ValueParam)
  | halt
  deriving DecidableEq, Repr

namespace Instr

/-- The opcode of each instruction (30_encoding.md R72). -/
def opcode : Instr → Nat
  | .add _ _ _ => 1
  | .mul _ _ _ => 2
  | .input _ => 3
  | .output _ => 4
  | .jumpIfTrue _ _ => 5
  | .jumpIfFalse _ _ => 6
  | .lessThan _ _ _ => 7
  | .equals _ _ _ => 8
  | .adjustBase _ => 9
  | .halt => 99

/-- The width in words, 1 + the number of parameters (30_encoding.md R72, R84). -/
def width : Instr → Nat
  | .add _ _ _ => 4
  | .mul _ _ _ => 4
  | .input _ => 2
  | .output _ => 2
  | .jumpIfTrue _ _ => 3
  | .jumpIfFalse _ _ => 3
  | .lessThan _ _ _ => 4
  | .equals _ _ _ => 4
  | .adjustBase _ => 2
  | .halt => 1

/-- The spec's short mnemonics (30_encoding.md R87). -/
def mnemonic : Instr → String
  | .add _ _ _ => "add"
  | .mul _ _ _ => "mul"
  | .input _ => "in"
  | .output _ => "out"
  | .jumpIfTrue _ _ => "jt"
  | .jumpIfFalse _ _ => "jf"
  | .lessThan _ _ _ => "lt"
  | .equals _ _ _ => "eq"
  | .adjustBase _ => "arb"
  | .halt => "hlt"

/-- Pseudo-instruction `jmp #t` or `jmp [n]`: a jump whose condition is always true
(30_encoding.md R88). -/
def jmp (target : ValueParam) : Instr :=
  .jumpIfTrue ⟨.immediate, 1⟩ target

/-- Pseudo-instruction `mov s, d` (30_encoding.md R88). -/
def mov (s : ValueParam) (d : WriteParam) : Instr :=
  .add s ⟨.immediate, 0⟩ d

/-- Pseudo-instruction `nop3`, never taken (30_encoding.md R88). -/
def nop3 : Instr :=
  .jumpIfFalse ⟨.immediate, 1⟩ ⟨.immediate, 0⟩

end Instr

end Sys2Proof
end

