-- ==== Sys2Proof/WellFormed.lean ====
section
/-!
DEFINITION. Which instruction terms stand for an instruction of a configuration.

The parameter types already rule out an immediate write parameter, so one check is left: under
`JUMP_TARGET = ADDRESS` a jump's target is a write parameter and may not be immediate.
-/

namespace Sys2Proof

/-- Whether `p` may be a jump's target: any mode under `VALUE`, not immediate under `ADDRESS`
(30_encoding.md R78, R80). -/
def ValueParam.legalTarget (c : Config) (p : ValueParam) : Bool :=
  match c.jumpTarget with
  | .value => true
  | .address => p.mode != .immediate

/-- The instruction terms that have an encoding under `c` (30_encoding.md R80). -/
def Instr.wellFormed (c : Config) : Instr → Bool
  | .add _ _ _ => true
  | .mul _ _ _ => true
  | .input _ => true
  | .output _ => true
  | .jumpIfTrue _ target => target.legalTarget c
  | .jumpIfFalse _ target => target.legalTarget c
  | .lessThan _ _ _ => true
  | .equals _ _ _ => true
  | .adjustBase _ => true
  | .halt => true

end Sys2Proof
end

