-- ==== Sys2Proof/Decode.lean ====
section
/-!
DEFINITION. The decoder, total on every word and rejecting by fault code, and the encoder.

Instruction fields are decimal digits of the instruction word (00_scope.md R11). The checks run in
the order of 30_encoding.md R85: the sign, the opcode, then each parameter's mode digit in turn,
then the excess digits.
-/

namespace Sys2Proof

/-! ### What a raise names -/

/-- The fault codes of 60_exceptions.md R122. -/
inductive FaultCode where
  | badOpcode
  | badMode
  | immediateWrite
  | excessModeDigits
  | negativeAddress
  | negativeJumpTarget
  | arithOverflow
  | capacityExceeded
  deriving DecidableEq, Repr

/-- The 4-bit numeric codes of 60_exceptions.md R122; 0 is "no fault". -/
def FaultCode.number : FaultCode → BitVec 4
  | .badOpcode => 1
  | .badMode => 2
  | .immediateWrite => 3
  | .excessModeDigits => 4
  | .negativeAddress => 5
  | .negativeJumpTarget => 6
  | .arithOverflow => 7
  | .capacityExceeded => 8

/-- `raise Fault(code, p)`: the code and the 1-based parameter index, 0 where the code concerns no
parameter (00_scope.md R13; 2 bits by 10_state.md R31). -/
structure Raise where
  code : FaultCode
  param : Fin 4
  deriving DecidableEq, Repr

/-! ### Digits and modes -/

/-- `digit(w, k)`, the k-th decimal digit of `w` counted from the units (00_scope.md R11). -/
def digit (w k : Nat) : Nat :=
  w / 10 ^ k % 10

/-- The mode a digit names (30_encoding.md R68, R69). -/
def Mode.ofDigit : Nat → Option Mode
  | 0 => some .position
  | 1 => some .immediate
  | 2 => some .relative
  | _ => none

/-- The mode of value parameter `i`, the digit `i + 1` of the word (30_encoding.md R68, R69). -/
def valueMode (w : Nat) (i : Fin 4) : Except Raise Mode :=
  match Mode.ofDigit (digit w (i.val + 1)) with
  | some m => .ok m
  | none => .error ⟨.badMode, i⟩

/-- The mode of write parameter `i`: its digit is checked first, then that it is not immediate
(30_encoding.md R69, R70, R85). -/
def writeMode (w : Nat) (i : Fin 4) : Except Raise WriteMode :=
  match Mode.ofDigit (digit w (i.val + 1)) with
  | some .position => .ok .position
  | some .immediate => .error ⟨.immediateWrite, i⟩
  | some .relative => .ok .relative
  | none => .error ⟨.badMode, i⟩

/-- A write mode as a mode. -/
def WriteMode.toMode : WriteMode → Mode
  | .position => .position
  | .relative => .relative

/-- The mode of a jump's target, parameter 2: of a value parameter under `VALUE`, of a write
parameter under `ADDRESS` (30_encoding.md R78). -/
def targetMode (c : Config) (w : Nat) : Except Raise Mode :=
  match c.jumpTarget with
  | .value => valueMode w 2
  | .address => (writeMode w 2).map WriteMode.toMode

/-- The excess digits, those above the digits of the opcode's `n` parameters, must be zero under
`EXCESS_DIGIT_MODE = FAULT` (30_encoding.md R71). -/
def checkExcess (c : Config) (w n : Nat) : Except Raise Unit :=
  if c.excessDigitMode = .fault ∧ w / 100 / 10 ^ n ≠ 0 then .error ⟨.excessModeDigits, 0⟩ else .ok ()

/-! ### The decoder of an instruction word -/

/-- What the decoder returns of one instruction word, the opcode and the modes of its parameters
(30_encoding.md R89). -/
inductive Header where
  | add (a b : Mode) (dst : WriteMode)
  | mul (a b : Mode) (dst : WriteMode)
  | input (dst : WriteMode)
  | output (a : Mode)
  | jumpIfTrue (cond target : Mode)
  | jumpIfFalse (cond target : Mode)
  | lessThan (a b : Mode) (dst : WriteMode)
  | equals (a b : Mode) (dst : WriteMode)
  | adjustBase (a : Mode)
  | halt
  deriving DecidableEq, Repr

/-- Format F3, three parameters of which the third is written (30_encoding.md R73). -/
def decodeF3 (c : Config) (w : Nat) (mk : Mode → Mode → WriteMode → Header) : Except Raise Header := do
  let a ← valueMode w 1
  let b ← valueMode w 2
  let dst ← writeMode w 3
  checkExcess c w 3
  return mk a b dst

/-- Format F2, a jump's condition and target (30_encoding.md R73). -/
def decodeF2 (c : Config) (w : Nat) (mk : Mode → Mode → Header) : Except Raise Header := do
  let cond ← valueMode w 1
  let target ← targetMode c w
  checkExcess c w 2
  return mk cond target

/-- Format F1 with a value parameter (30_encoding.md R73). -/
def decodeF1Value (c : Config) (w : Nat) (mk : Mode → Header) : Except Raise Header := do
  let a ← valueMode w 1
  checkExcess c w 1
  return mk a

/-- Format F1 with a write parameter (30_encoding.md R73). -/
def decodeF1Write (c : Config) (w : Nat) (mk : WriteMode → Header) : Except Raise Header := do
  let dst ← writeMode w 1
  checkExcess c w 1
  return mk dst

/-- Format F0, no parameters (30_encoding.md R73). -/
def decodeF0 (c : Config) (w : Nat) (h : Header) : Except Raise Header := do
  checkExcess c w 0
  return h

/-- `Decode(w)` of 30_encoding.md R85. -/
def decodeWord (c : Config) (word : Word) : Except Raise Header :=
  if word.toInt < 0 then
    .error ⟨.badOpcode, 0⟩
  else
    let w := word.toNat
    match w % 100 with
    | 1 => decodeF3 c w .add
    | 2 => decodeF3 c w .mul
    | 3 => decodeF1Write c w .input
    | 4 => decodeF1Value c w .output
    | 5 => decodeF2 c w .jumpIfTrue
    | 6 => decodeF2 c w .jumpIfFalse
    | 7 => decodeF3 c w .lessThan
    | 8 => decodeF3 c w .equals
    | 9 => decodeF1Value c w .adjustBase
    | 99 => decodeF0 c w .halt
    | _ => .error ⟨.badOpcode, 0⟩

/-- The instruction with its raw operands attached: word `i` of the instruction is the raw operand
of parameter `i` (30_encoding.md R65, R74). -/
def Header.withOperands (words : Nat → Word) : Header → Instr
  | .add a b dst => .add ⟨a, words 1⟩ ⟨b, words 2⟩ ⟨dst, words 3⟩
  | .mul a b dst => .mul ⟨a, words 1⟩ ⟨b, words 2⟩ ⟨dst, words 3⟩
  | .input dst => .input ⟨dst, words 1⟩
  | .output a => .output ⟨a, words 1⟩
  | .jumpIfTrue cond target => .jumpIfTrue ⟨cond, words 1⟩ ⟨target, words 2⟩
  | .jumpIfFalse cond target => .jumpIfFalse ⟨cond, words 1⟩ ⟨target, words 2⟩
  | .lessThan a b dst => .lessThan ⟨a, words 1⟩ ⟨b, words 2⟩ ⟨dst, words 3⟩
  | .equals a b dst => .equals ⟨a, words 1⟩ ⟨b, words 2⟩ ⟨dst, words 3⟩
  | .adjustBase a => .adjustBase ⟨a, words 1⟩
  | .halt => .halt

/-- The instruction that starts at word 0 of an instruction stream (30_encoding.md R65, R85, R89). -/
def decode (c : Config) (words : Nat → Word) : Except Raise Instr :=
  (decodeWord c (words 0)).map (Header.withOperands words)

/-! ### The encoder -/

/-- The digit of a mode (30_encoding.md R68). -/
def Mode.toDigit : Mode → Nat
  | .position => 0
  | .immediate => 1
  | .relative => 2

/-- The digit of a write mode (30_encoding.md R68, R70). -/
def WriteMode.toDigit : WriteMode → Nat
  | .position => 0
  | .relative => 2

/-- `opcode + 100·mode_1 + 1000·mode_2 + 10000·mode_3`, absent modes 0 (30_encoding.md R73). -/
def encodeWord (opcode m1 m2 m3 : Nat) : Word :=
  BitVec.ofNat 64 (opcode + 100 * m1 + 1000 * m2 + 10000 * m3)

/-- The words of an instruction, its instruction word first and then its raw operands in order
(30_encoding.md R65, R73, R80). -/
def encode : Instr → List Word
  | .add a b dst => [encodeWord 1 a.mode.toDigit b.mode.toDigit dst.mode.toDigit, a.raw, b.raw, dst.raw]
  | .mul a b dst => [encodeWord 2 a.mode.toDigit b.mode.toDigit dst.mode.toDigit, a.raw, b.raw, dst.raw]
  | .input dst => [encodeWord 3 dst.mode.toDigit 0 0, dst.raw]
  | .output a => [encodeWord 4 a.mode.toDigit 0 0, a.raw]
  | .jumpIfTrue cond target => [encodeWord 5 cond.mode.toDigit target.mode.toDigit 0, cond.raw, target.raw]
  | .jumpIfFalse cond target => [encodeWord 6 cond.mode.toDigit target.mode.toDigit 0, cond.raw, target.raw]
  | .lessThan a b dst => [encodeWord 7 a.mode.toDigit b.mode.toDigit dst.mode.toDigit, a.raw, b.raw, dst.raw]
  | .equals a b dst => [encodeWord 8 a.mode.toDigit b.mode.toDigit dst.mode.toDigit, a.raw, b.raw, dst.raw]
  | .adjustBase a => [encodeWord 9 a.mode.toDigit 0 0, a.raw]
  | .halt => [encodeWord 99 0 0 0]

/-- A finite list of words as an instruction stream; past its end every word is 0, as memory reads
past `memLen` (20_memory.md R47). -/
def streamOf (ws : List Word) (k : Nat) : Word :=
  ws.getD k 0

/-! ### The host's view of the opcode table -/

/-- Word `k` of an instruction whose bits are `w`, bit 0 the least significant bit of the first
word and `nbits` bits in all, zero above (DESIGN CHOICE, assumption log 16, safe). -/
def tableWord (nbits w k : Nat) : Word :=
  BitVec.ofNat 64 ((w % 2 ^ nbits) >>> (64 * k))

/-- The instruction the decoder reads from those words at the default configuration, the one
spec/opcode_table.json lists its legal words for. -/
def decodeTableWord (nbits w : Nat) : Option Instr :=
  (decode Config.default (tableWord nbits w)).toOption

end Sys2Proof
end

