-- ==== Sys2Proof/Machine/State.lean ====
section
/-!
DEFINITION. The machine's state as plain data, its reset, and the reasons the model stops.

The fields are those of 10_state.md R42, the control state's BUSY bit (R35, R39, R40) and the
configuration (00_scope.md R8), which the host's `step` gives no other place (assumption log 2).
-/

namespace Sys2Proof.Machine

open Host (Outcome)

/-- The memory's contents as (word address, word) cells (10_state.md R21; 20_memory.md R45). In
canonical form (`Memory.wf`) addresses rise strictly and no cell holds what an unlisted address
reads as (DEDUCED, assumption log 1, safe). -/
abbrev Memory := List (Nat × Word)

/-- What an address that no cell lists reads as: "Addresses never explicitly allocated read as
zero" (10_state.md R21, R41). -/
abbrev Memory.unlisted : Word := 0

/-- The canonical form of a memory. -/
abbrev Memory.wf (m : Memory) : Prop :=
  m.Pairwise (fun c d => c.1 < d.1) ∧ ∀ c ∈ m, c.2 ≠ Memory.unlisted

/-- A fault record: the code, the parameter index, `ip` when the faulting instruction began and the
word fetched there (10_state.md R29, R31). -/
structure FaultRecord where
  code : FaultCode
  param : Fin 4
  fip : Nat
  fword : Word
  deriving DecidableEq, Repr

/-- The machine's state. -/
structure State where
  /-- The parameters of 00_scope.md R8; the model's own field (assumption log 2). -/
  cfg : Config
  /-- Memory contents (10_state.md R21). -/
  mem : Memory
  /-- Memory length (10_state.md R22). -/
  memLen : Nat
  /-- Instruction pointer (10_state.md R23), a natural number as in R42 (assumption log 8). -/
  ip : Nat
  /-- Relative base (10_state.md R24). -/
  rb : Word
  /-- Input queue, oldest entry first (10_state.md R25). -/
  inq : List Word
  /-- Input latch (10_state.md R26). -/
  latch : Word
  /-- Output latch, `lastOutput` (10_state.md R27). -/
  out : Word
  /-- Halted flag (10_state.md R28). -/
  halted : Bool
  /-- Fault record (10_state.md R29). -/
  fault : Option FaultRecord
  /-- Control state BUSY: a STEP transaction is running (10_state.md R35; assumption log 5). -/
  busy : Bool
  deriving DecidableEq, Repr

/-- Why the model answers a fault. No instruction and no step raises one: the hardware's own faults
are next states that hold a fault record (60_exceptions.md R126; assumption log 6). -/
inductive Fault where
  /-- Raised by `stepTransaction` and the driver loops only, when the caller's bound is spent before
  the core responds (40_execution_cycle.md R107; assumption log 9). Safe: the hardware goes on. -/
  | noResponseWithinBudget
  deriving DecidableEq, Repr

/-- Why the model refuses. -/
inductive Refusal where
  /-- Raised by an arm of `exec` whose instruction has no meaning yet. Safe. No arm does. -/
  | notModelled (mnemonic : String)
  /-- Raised by `command` only: the host issues a command while the core is BUSY, which is outside
  the spec (40_execution_cycle.md R94; assumption log 10). Unsafe where a real host interferes. -/
  | hostCommandWhileBusy
  deriving DecidableEq, Repr

/-- The event of a committed instruction (40_execution_cycle.md R91). -/
inductive Event where
  | none
  | output
  | halt
  deriving DecidableEq, Repr

/-- A pending write: the address, the word, and the index of the write parameter that a capacity
fault records (20_memory.md R48). -/
structure PendingWrite where
  addr : Nat
  value : Word
  param : Fin 4
  deriving DecidableEq, Repr

/-- The effect record `E` of 40_execution_cycle.md R91. -/
structure Effects where
  write : Option PendingWrite
  ip : Nat
  rb : Word
  pop : Bool
  out : Word
  halted : Bool
  event : Event
  deriving DecidableEq, Repr

/-- The state after LOAD([]) at the default configuration, the concrete initial state that
70_reset_and_hazards.md R143 permits; the values are R40's (DESIGN CHOICE, assumption log 4). -/
def State.reset : State where
  cfg := Config.default
  mem := []
  memLen := 0
  ip := 0
  rb := 0
  inq := []
  latch := 0
  out := 0
  halted := false
  fault := none
  busy := false

end Sys2Proof.Machine
end

