-- ==== Sys2Proof/Machine/Flags.lean ====
section
/-!
DEFINITION. The datapath's range rule and the truth values of comparisons.

The core has no flag register (10_state.md R30): a comparison's result is a word, and an overflow
is a fault or a wrap.
-/

namespace Sys2Proof.Machine

/-- `inI64(v)` of 00_scope.md R12. -/
abbrev inI64 (v : Int) : Prop :=
  -(2 ^ 63) ≤ v ∧ v ≤ 2 ^ 63 - 1

/-- `wrap64(v)` of 00_scope.md R12, the word whose signed value is congruent to `v` modulo 2^64. -/
def wrap64 (v : Int) : Word :=
  BitVec.ofInt 64 v

/-- `arith(v)`, the range rule for add, mul and adjust-base (00_scope.md R12). -/
def arith (c : Config) (v : Int) : Except Raise Word :=
  if inI64 v then
    .ok (wrap64 v)
  else
    match c.overflowMode with
    | .fault => .error ⟨.arithOverflow, 0⟩
    | .wrap => .ok (wrap64 v)

/-- A comparison's result as a word: 1 or 0 (10_state.md R30). -/
def truthWord (b : Bool) : Word :=
  if b then 1 else 0

/-- The signed comparison of less-than (44_compare.md R116). -/
def lessThanWord (x y : Word) : Word :=
  truthWord (decide (x.toInt < y.toInt))

/-- The comparison of equals (44_compare.md R117). -/
def equalsWord (x y : Word) : Word :=
  truthWord (decide (x = y))

end Sys2Proof.Machine
end

