-- ==== Sys2Proof/Machine/Ops.lean ====
section
/-!
DEFINITION. The shared operations over memory and registers: reading and writing memory, committing
an instruction's effects, entering a fault, and fetching.

There is no return from a fault: only LOAD leaves the faulted state (60_exceptions.md R128, R129),
and it stands in Commands.lean.
-/

namespace Sys2Proof.Machine

open Host (Outcome)

/-! ### Memory as cells -/

/-- The word a memory lists at an address, or what an unlisted address reads as. -/
def Memory.lookup : Memory → Nat → Word
  | [], _ => Memory.unlisted
  | (k, w) :: m, a => if k = a then w else Memory.lookup m a

/-- A memory without the cells of one address. -/
def Memory.erase (m : Memory) (a : Nat) : Memory :=
  m.filter (fun c => decide (c.1 ≠ a))

/-- A memory without the cells at or beyond a length. -/
def Memory.below (m : Memory) (len : Nat) : Memory :=
  m.filter (fun c => decide (c.1 < len))

/-- A cell put before the first cell of a higher address. -/
def Memory.insert (a : Nat) (v : Word) : Memory → Memory
  | [] => [(a, v)]
  | (k, w) :: m => if a < k then (a, v) :: (k, w) :: m else (k, w) :: Memory.insert a v m

/-- One cell's new word. Writing the word an unlisted address reads as removes the cell. -/
def Memory.update (m : Memory) (a : Nat) (v : Word) : Memory :=
  if v = Memory.unlisted then m.erase a else Memory.insert a v (m.erase a)

/-- The cells of an image placed at an address and on (70_reset_and_hazards.md R141). -/
def Memory.ofImage : Nat → List Word → Memory
  | _, [] => []
  | a, v :: image =>
    if v = Memory.unlisted then Memory.ofImage (a + 1) image
    else (a, v) :: Memory.ofImage (a + 1) image

/-! ### The read and write primitives -/

/-- `MemRead(a, 1)`: a word at an address below `memLen`, 0 beyond (20_memory.md R47). -/
def memRead (s : State) (a : Nat) : Word :=
  if a < s.memLen then s.mem.lookup a else 0

/-- The store of 20_memory.md R48 without its capacity check: at or beyond `memLen` the new cells
up to `a` become 0 and the length grows to `a + 1`. Dropping the cells at or beyond the old length
is that zero-fill (DEDUCED, assumption log 11, safe). -/
def storeWord (a : Nat) (v : Word) (s : State) : State :=
  if s.memLen ≤ a then
    { s with mem := (s.mem.below s.memLen).update a v, memLen := a + 1 }
  else
    { s with mem := s.mem.update a v }

/-- The capacity check of 20_memory.md R48 for write parameter `p`. -/
def checkCapacity (s : State) (p : Fin 4) (a : Nat) : Except Raise Unit :=
  if s.cfg.memCapacity ≤ a then .error ⟨.capacityExceeded, p⟩ else .ok ()

/-- `MemWrite(a, 1, v)` (20_memory.md R48). -/
def memWrite (p : Fin 4) (a : Nat) (v : Word) (s : State) : Except Raise State :=
  (checkCapacity s p a).map (fun _ => storeWord a v s)

/-! ### Effects and their commit -/

/-- The effects of an instruction that only moves `ip` and has an event: every other field at the
"no change" value of 40_execution_cycle.md R91. -/
def Effects.quiet (s : State) (ip : Nat) (event : Event) : Effects where
  write := none
  ip := ip
  rb := s.rb
  pop := false
  out := s.out
  halted := false
  event := event

/-- The effects of an instruction of `width` words that writes `v` to the address of its write
parameter `p` and falls through (30_encoding.md R72). -/
def Effects.storing (s : State) (width : Nat) (p : Fin 4) (a : Nat) (v : Word) : Effects :=
  { Effects.quiet s (s.ip + width) .none with write := some ⟨a, v, p⟩ }

/-- The capacity check of an instruction's pending write, the last check before COMMIT
(40_execution_cycle.md R91; 60_exceptions.md R124). -/
def Effects.check (s : State) (e : Effects) : Except Raise Effects :=
  match e.write with
  | none => .ok e
  | some w => (checkCapacity s w.param w.addr).map (fun _ => e)

/-- COMMIT: all effects at once (40_execution_cycle.md R92). The control state stays BUSY exactly
when the event is NONE (R90; assumption log 5). -/
def commit (s : State) (e : Effects) : State :=
  let stored := match e.write with
    | none => s
    | some w => storeWord w.addr w.value s
  { stored with
    ip := e.ip
    rb := e.rb
    out := e.out
    inq := if e.pop then s.inq.tail else s.inq
    halted := s.halted || e.halted
    busy := decide (e.event = .none) }

/-- Fault entry (60_exceptions.md R126): the record is written with `ip` and the word fetched there,
and the control state leaves BUSY for FAULTED; nothing else changes. -/
def takeFault (x : Raise) (s : State) : State :=
  { s with fault := some ⟨x.code, x.param, s.ip, memRead s s.ip⟩, busy := false }

/-- The end of every instruction: its effects are checked and committed, or its raise is taken as a
fault (40_execution_cycle.md R91). -/
def complete (r : Except Raise Effects) (s : State) : Outcome State Fault Refusal :=
  match r.bind (Effects.check s) with
  | .ok e => .next (commit s e)
  | .error x => .next (takeFault x s)

/-! ### Fetching -/

/-- The instruction stream at `ip`: every word of it is a plain memory read (20_memory.md R52). -/
def fetchWords (s : State) (k : Nat) : Word :=
  memRead s (s.ip + k)

/-- FETCH and DECODE, with the raw operands attached (40_execution_cycle.md R91). -/
def fetchDecode (s : State) : Except Raise Instr :=
  decode s.cfg (fetchWords s)

/-- Words stored one after another from an address on. -/
def placeWords : Nat → List Word → State → State
  | _, [], s => s
  | a, w :: ws, s => placeWords (a + 1) ws (storeWord a w s)

/-- The four words of `tableWord`, the longest instruction's, placed at `ip` of a machine that is
neither halted nor faulted (assumption log 7). -/
def placeTableWords (s : State) (nbits w : Nat) : State :=
  let placed := placeWords s.ip [tableWord nbits w 0, tableWord nbits w 1, tableWord nbits w 2, tableWord nbits w 3] s
  { placed with halted := false, fault := none }

end Sys2Proof.Machine
end

