-- ==== Sys2Proof/Machine/Operands.lean ====
section
/-!
DEFINITION. Every operand form: effective addresses, value parameters, write parameters and jump
targets (30_encoding.md R74 to R79), resolved in parameter index order (40_execution_cycle.md R91).
-/

namespace Sys2Proof.Machine

/-- The effective address of a position-mode parameter, an exact integer (30_encoding.md R75). -/
def positionAddress (raw : Word) : Int :=
  raw.toInt

/-- The effective address of a relative-mode parameter, an exact sum (30_encoding.md R75). -/
def relativeAddress (s : State) (raw : Word) : Int :=
  s.rb.toInt + raw.toInt

/-- A negative effective address of parameter `i` raises (20_memory.md R50). -/
def checkAddress (i : Fin 4) (ea : Int) : Except Raise Nat :=
  if ea < 0 then .error ⟨.negativeAddress, i⟩ else .ok ea.toNat

/-- `ResolveValue(i)` (30_encoding.md R76). -/
def resolveValue (i : Fin 4) (p : ValueParam) (s : State) : Except Raise Word :=
  match p.mode with
  | .position => (checkAddress i (positionAddress p.raw)).map (memRead s)
  | .immediate => .ok p.raw
  | .relative => (checkAddress i (relativeAddress s p.raw)).map (memRead s)

/-- `ResolveAddr(i)` (30_encoding.md R77). -/
def resolveAddr (i : Fin 4) (p : WriteParam) (s : State) : Except Raise Nat :=
  match p.mode with
  | .position => checkAddress i (positionAddress p.raw)
  | .relative => checkAddress i (relativeAddress s p.raw)

/-- A jump's target, parameter 2, as an integer: a signed value under `VALUE`, an address under
`ADDRESS` (30_encoding.md R78). An immediate target under `ADDRESS` never leaves the decoder; the
term raises what the decoder raises for its word (DEDUCED, assumption log 12, safe). -/
def resolveTarget (p : ValueParam) (s : State) : Except Raise Int :=
  match s.cfg.jumpTarget with
  | .value => (resolveValue 2 p s).map BitVec.toInt
  | .address =>
    match p.mode with
    | .position => (resolveAddr 2 ⟨.position, p.raw⟩ s).map Int.ofNat
    | .immediate => .error ⟨.immediateWrite, 2⟩
    | .relative => (resolveAddr 2 ⟨.relative, p.raw⟩ s).map Int.ofNat

/-- The parameters of format F3: two values and an address (30_encoding.md R72). -/
def resolveThree (a b : ValueParam) (dst : WriteParam) (s : State) : Except Raise (Word × Word × Nat) := do
  let x ← resolveValue 1 a s
  let y ← resolveValue 2 b s
  let d ← resolveAddr 3 dst s
  return (x, y, d)

/-- The parameters of format F2: a condition and a target, both always resolved
(43_jumps.md R114). A target the decoder rejects comes first, as decoding does. -/
def resolveJump (cond target : ValueParam) (s : State) : Except Raise (Word × Int) :=
  if target.legalTarget s.cfg then do
    let c ← resolveValue 1 cond s
    let t ← resolveTarget target s
    return (c, t)
  else
    .error ⟨.immediateWrite, 2⟩

end Sys2Proof.Machine
end

