-- ==== Sys2Proof/Machine/Arithmetic.lean ====
section
/-!
DEFINITION. add and mul (41_arithmetic.md).
-/

namespace Sys2Proof.Machine

open Host (Outcome)

/-- `Effects_add` (41_arithmetic.md R110): the exact sum under the range rule, to `dst`. -/
def addEffects (x y : Word) (d : Nat) (s : State) : Except Raise Effects :=
  (arith s.cfg (x.toInt + y.toInt)).map (Effects.storing s 4 3 d)

/-- add (41_arithmetic.md R110). -/
def execAdd (a b : ValueParam) (dst : WriteParam) (s : State) : Outcome State Fault Refusal :=
  complete (do let (x, y, d) ← resolveThree a b dst s; addEffects x y d s) s

/-- `Effects_mul` (41_arithmetic.md R111): the exact product under the range rule, to `dst`. -/
def mulEffects (x y : Word) (d : Nat) (s : State) : Except Raise Effects :=
  (arith s.cfg (x.toInt * y.toInt)).map (Effects.storing s 4 3 d)

/-- mul (41_arithmetic.md R111). -/
def execMul (a b : ValueParam) (dst : WriteParam) (s : State) : Outcome State Fault Refusal :=
  complete (do let (x, y, d) ← resolveThree a b dst s; mulEffects x y d s) s

end Sys2Proof.Machine
end

