-- ==== Sys2Proof/Machine/BaseAndHalt.lean ====
section
/-!
DEFINITION. adjust-base and halt (45_base_and_halt.md).
-/

namespace Sys2Proof.Machine

open Host (Outcome)

/-- `Effects_adjust_base` (45_base_and_halt.md R118): the exact sum under the range rule, to `rb`. -/
def adjustBaseEffects (x : Word) (s : State) : Except Raise Effects :=
  (arith s.cfg (s.rb.toInt + x.toInt)).map
    (fun r => { Effects.quiet s (s.ip + 2) .none with rb := r })

/-- adjust-base (45_base_and_halt.md R118). -/
def execAdjustBase (a : ValueParam) (s : State) : Outcome State Fault Refusal :=
  complete (do let x ← resolveValue 1 a s; adjustBaseEffects x s) s

/-- `Effects_halt` (45_base_and_halt.md R119): halted, `ip` unchanged, suspending. -/
def haltEffects (s : State) : Except Raise Effects :=
  .ok { Effects.quiet s s.ip .halt with halted := true }

/-- halt (45_base_and_halt.md R119). -/
def execHalt (s : State) : Outcome State Fault Refusal :=
  complete (haltEffects s) s

end Sys2Proof.Machine
end

