-- ==== Sys2Proof/Machine/Compare.lean ====
section
/-!
DEFINITION. less-than and equals (44_compare.md).
-/

namespace Sys2Proof.Machine

open Host (Outcome)

/-- `Effects_less_than` (44_compare.md R116). -/
def lessThanEffects (x y : Word) (d : Nat) (s : State) : Except Raise Effects :=
  .ok (Effects.storing s 4 3 d (lessThanWord x y))

/-- less-than (44_compare.md R116). -/
def execLessThan (a b : ValueParam) (dst : WriteParam) (s : State) : Outcome State Fault Refusal :=
  complete (do let (x, y, d) ← resolveThree a b dst s; lessThanEffects x y d s) s

/-- `Effects_equals` (44_compare.md R117). -/
def equalsEffects (x y : Word) (d : Nat) (s : State) : Except Raise Effects :=
  .ok (Effects.storing s 4 3 d (equalsWord x y))

/-- equals (44_compare.md R117). -/
def execEquals (a b : ValueParam) (dst : WriteParam) (s : State) : Outcome State Fault Refusal :=
  complete (do let (x, y, d) ← resolveThree a b dst s; equalsEffects x y d s) s

end Sys2Proof.Machine
end

