-- ==== Sys2Proof/Machine/InputOutput.lean ====
section
/-!
DEFINITION. input and output (42_io.md), the core's only I/O.
-/

namespace Sys2Proof.Machine

open Host (Outcome)

/-- `Effects_input` (42_io.md R112): the oldest queue entry, popped, or the latch, kept, when the
queue is empty. -/
def inputEffects (d : Nat) (s : State) : Except Raise Effects :=
  match s.inq with
  | v :: _ => .ok { Effects.storing s 2 1 d v with pop := true }
  | [] => .ok (Effects.storing s 2 1 d s.latch)

/-- input (42_io.md R112). -/
def execInput (dst : WriteParam) (s : State) : Outcome State Fault Refusal :=
  complete (do let d ← resolveAddr 1 dst s; inputEffects d s) s

/-- `Effects_output` (42_io.md R113): the output latch, past the instruction, suspending. -/
def outputEffects (x : Word) (s : State) : Except Raise Effects :=
  .ok { Effects.quiet s (s.ip + 2) .output with out := x }

/-- output (42_io.md R113). -/
def execOutput (a : ValueParam) (s : State) : Outcome State Fault Refusal :=
  complete (do let x ← resolveValue 1 a s; outputEffects x s) s

end Sys2Proof.Machine
end

