-- ==== Sys2Proof/Machine/Jumps.lean ====
section
/-!
DEFINITION. jump-if-true and jump-if-false (43_jumps.md).
-/

namespace Sys2Proof.Machine

open Host (Outcome)

/-- The effects of a jump once it is known whether it is taken: a taken one to a negative target
raises, one not taken falls through by 3 (43_jumps.md R114, R115). -/
def jumpEffects (taken : Bool) (target : Int) (s : State) : Except Raise Effects :=
  if taken then
    if target < 0 then .error ⟨.negativeJumpTarget, 2⟩ else .ok (Effects.quiet s target.toNat .none)
  else
    .ok (Effects.quiet s (s.ip + 3) .none)

/-- `Effects_jump_if_true` (43_jumps.md R114). -/
def jumpIfTrueEffects (cond : Word) (target : Int) (s : State) : Except Raise Effects :=
  jumpEffects (decide (cond ≠ 0)) target s

/-- jump-if-true (43_jumps.md R114). -/
def execJumpIfTrue (cond target : ValueParam) (s : State) : Outcome State Fault Refusal :=
  complete (do let (c, t) ← resolveJump cond target s; jumpIfTrueEffects c t s) s

/-- `Effects_jump_if_false` (43_jumps.md R115). -/
def jumpIfFalseEffects (cond : Word) (target : Int) (s : State) : Except Raise Effects :=
  jumpEffects (decide (cond = 0)) target s

/-- jump-if-false (43_jumps.md R115). -/
def execJumpIfFalse (cond target : ValueParam) (s : State) : Outcome State Fault Refusal :=
  complete (do let (c, t) ← resolveJump cond target s; jumpIfFalseEffects c t s) s

end Sys2Proof.Machine
end

