-- ==== Sys2Proof/Machine/Step.lean ====
section
/-!
DEFINITION. One step: one instruction of the core.
-/

namespace Sys2Proof.Machine

open Host (Outcome)

/-- One step of the core. A faulted or halted core executes no instruction and changes no state
(40_execution_cycle.md R97, R98); otherwise the instruction at `ip` is fetched, decoded and executed
as `exec1` of R91 says, a decode fault being taken. A step in the IDLE state is the host's STEP
accepted and its first instruction run; one in the BUSY state is the next instruction of the same
transaction (assumption log 5). -/
def step (s : State) : Outcome State Fault Refusal :=
  if s.fault.isSome then
    .next s
  else if s.halted then
    .next s
  else
    match fetchDecode s with
    | .ok i => exec i s
    | .error x => .next (takeFault x s)

/-- The state in which the next step fetches and runs the instruction whose bits are `w`: its words
stand at `ip`, and the core is neither halted nor faulted (assumption log 7). -/
def State.withFetchWord (s : State) (nbits w : Nat) : State :=
  placeTableWords s nbits w

end Sys2Proof.Machine
end

