-- ==== Sys2Proof/Machine/Commands.lean ====
section
/-!
DEFINITION. The host's commands, their responses and the status port (10_state.md R38, R39;
40_execution_cycle.md R94 to R104).
-/

namespace Sys2Proof.Machine

open Host (Outcome)

/-! ### Control state and status port -/

/-- The control states of 10_state.md R35. -/
inductive ControlState where
  | idle
  | busy
  | halted
  | faulted
  deriving DecidableEq, Repr

/-- The control state (10_state.md R35). -/
def State.control (s : State) : ControlState :=
  if s.fault.isSome then .faulted
  else if s.halted then .halted
  else if s.busy then .busy
  else .idle

/-- What the port drives of a fault record (10_state.md R31, R39). -/
structure FaultPort where
  code : BitVec 4
  param : Fin 4
  ip : Nat
  word : Word
  deriving DecidableEq, Repr

/-- The status port (10_state.md R39). The fault fields exist only when `faulted` (assumption log
14). -/
structure Status where
  busy : Bool
  halted : Bool
  lastOutput : Word
  faulted : Bool
  faultFields : Option FaultPort
  deriving DecidableEq, Repr

/-- The values on the status port; reading them changes nothing (40_execution_cycle.md R102). -/
def State.status (s : State) : Status where
  busy := decide (s.control = .busy)
  halted := s.halted
  lastOutput := s.out
  faulted := s.fault.isSome
  faultFields := s.fault.map (fun r => ⟨r.code.number, r.param, r.fip, r.fword⟩)

/-! ### Commands and responses -/

/-- The host's commands (10_state.md R38); a host address is 64-bit unsigned. -/
inductive Command where
  | load (image : List Word)
  | feed (v : Word)
  | setLatch (v : Word)
  | peek (a : BitVec 64)
  | poke (a : BitVec 64) (v : Word)
  | step
  deriving DecidableEq, Repr

/-- The responses of 10_state.md R38. -/
inductive Response where
  | ok
  | refused
  | data (v : Word)
  | output (v : Word)
  | halt
  | fault
  | postHaltNoop
  | postHaltError
  deriving DecidableEq, Repr

/-- The reset state of an image at a configuration (70_reset_and_hazards.md R141). -/
def loaded (c : Config) (image : List Word) : State :=
  { State.reset with cfg := c, mem := Memory.ofImage 0 image, memLen := image.length }

/-- LOAD (40_execution_cycle.md R104). -/
def loadCommand (image : List Word) (s : State) : State × Response :=
  if s.cfg.memCapacity < image.length then (s, .refused) else (loaded s.cfg image, .ok)

/-- Whether the input queue holds exactly `INQ_DEPTH` entries (40_execution_cycle.md R99). -/
def State.queueFull (s : State) : Bool :=
  match s.cfg.inqDepth with
  | none => false
  | some depth => decide (s.inq.length = depth)

/-- FEED (40_execution_cycle.md R99). -/
def feedCommand (v : Word) (s : State) : State × Response :=
  if s.queueFull then (s, .refused) else ({ s with inq := s.inq ++ [v] }, .ok)

/-- SET_LATCH (40_execution_cycle.md R100). -/
def setLatchCommand (v : Word) (s : State) : State × Response :=
  ({ s with latch := v }, .ok)

/-- PEEK (40_execution_cycle.md R103). -/
def peekCommand (a : BitVec 64) (s : State) : State × Response :=
  (s, .data (memRead s a.toNat))

/-- POKE, the instructions' own write, refused instead of faulting beyond the capacity
(40_execution_cycle.md R101). -/
def pokeCommand (a : BitVec 64) (v : Word) (s : State) : State × Response :=
  match memWrite 0 a.toNat v s with
  | .ok t => (t, .ok)
  | .error _ => (s, .refused)

/-! ### STEP -/

/-- The response of a transaction that has just left BUSY (40_execution_cycle.md R96). -/
def stepResponse (t : State) : Response :=
  if t.fault.isSome then .fault
  else if t.halted then .halt
  else .output t.out

/-- The loop of STEP (40_execution_cycle.md R96): instructions run until one leaves BUSY. At most
`budget` of them are run; the hardware has no bound (R107; DESIGN CHOICE, assumption log 9, safe). -/
def stepTransaction : Nat → State → Outcome (State × Response) Fault Refusal
  | 0, _ => .fault .noResponseWithinBudget
  | budget + 1, s =>
    match step s with
    | .next t => if t.busy then stepTransaction budget t else .next (t, stepResponse t)
    | .fault f => .fault f
    | .refused r => .refused r

/-- The response to STEP after halt (40_execution_cycle.md R97). -/
def postHaltResponse (c : Config) : Response :=
  match c.postHaltStep with
  | .noop => .postHaltNoop
  | .error => .postHaltError

/-- STEP (40_execution_cycle.md R96, R97, R98). -/
def stepCommand (budget : Nat) (s : State) : Outcome (State × Response) Fault Refusal :=
  if s.fault.isSome then .next (s, .fault)
  else if s.halted then .next (s, postHaltResponse s.cfg)
  else stepTransaction budget s

/-- One host command as one transaction with one response (40_execution_cycle.md R95). A command
issued while BUSY is outside the spec (R94; DESIGN CHOICE, assumption log 10, unsafe). -/
def command (budget : Nat) (c : Command) (s : State) : Outcome (State × Response) Fault Refusal :=
  if s.control = .busy then
    .refused .hostCommandWhileBusy
  else
    match c with
    | .load image => .next (loadCommand image s)
    | .feed v => .next (feedCommand v s)
    | .setLatch v => .next (setLatchCommand v s)
    | .peek a => .next (peekCommand a s)
    | .poke a v => .next (pokeCommand a v s)
    | .step => stepCommand budget s

end Sys2Proof.Machine
end

