-- ==== Sys2Proof/Machine/Driver.lean ====
section
/-!
DEFINITION. The host-side loops of STEP commands (40_execution_cycle.md R105, R106). They are no
commands of the core.

Both take a bound on the number of STEPs and one on the instructions of each (DESIGN CHOICE,
assumption log 9, safe).
-/

namespace Sys2Proof.Machine

open Host (Outcome)

/-- How a host-side loop ended: with a result, or aborted on a fault record
(40_execution_cycle.md R105, R106). -/
inductive DriverResult (α : Type) where
  | done (result : α)
  | aborted (record : Option FaultRecord) (result : α)
  deriving DecidableEq, Repr

/-- Whether a response is an OUTPUT response. -/
def Response.isOutput : Response → Bool
  | .output _ => true
  | .ok | .refused | .data _ | .halt | .fault | .postHaltNoop | .postHaltError => false

/-- The end of a loop in state `t`, after a response that is no OUTPUT: aborted with the record after
FAULT, done otherwise. -/
def endLoop {α : Type} (t : State) (r : Response) (result : α) : Outcome (State × DriverResult α) Fault Refusal :=
  if r = .fault then .next (t, .aborted t.fault result) else .next (t, .done result)

/-- `runToCompletion()` (40_execution_cycle.md R105). -/
def runToCompletion (budget : Nat) : Nat → State → Outcome (State × DriverResult Word) Fault Refusal
  | 0, _ => .fault .noResponseWithinBudget
  | steps + 1, s =>
    match command budget .step s with
    | .next (t, r) => if r.isOutput then runToCompletion budget steps t else endLoop t r t.out
    | .fault f => .fault f
    | .refused r => .refused r

/-- `drainAllOutputs()` with the outputs collected so far (40_execution_cycle.md R106). -/
def drainFrom (budget : Nat) (outs : List Word) : Nat → State → Outcome (State × DriverResult (List Word)) Fault Refusal
  | 0, _ => .fault .noResponseWithinBudget
  | steps + 1, s =>
    match command budget .step s with
    | .next (t, r) => if r.isOutput then drainFrom budget (outs ++ [t.out]) steps t else endLoop t r outs
    | .fault f => .fault f
    | .refused r => .refused r

/-- `drainAllOutputs()` (40_execution_cycle.md R106). -/
def drainAllOutputs (budget steps : Nat) (s : State) : Outcome (State × DriverResult (List Word)) Fault Refusal :=
  drainFrom budget [] steps s

end Sys2Proof.Machine
end

