-- ==== Sys2Proof/Machine/Phases.lean ====
section
/-!
DEFINITION. The control FSM's phases inside one instruction (40_execution_cycle.md R90).

The phase is not part of State: nobody observes it (10_state.md R34; DESIGN CHOICE, assumption log
15, safe). `step` is the one-instruction meaning; this machine runs the same instruction phase by
phase.
-/

namespace Sys2Proof.Machine

/-- An instruction after RESOLVE: its opcode with every parameter's value or address. -/
inductive Resolved where
  | add (x y : Word) (d : Nat)
  | mul (x y : Word) (d : Nat)
  | input (d : Nat)
  | output (x : Word)
  | jumpIfTrue (cond : Word) (target : Int)
  | jumpIfFalse (cond : Word) (target : Int)
  | lessThan (x y : Word) (d : Nat)
  | equals (x y : Word) (d : Nat)
  | adjustBase (x : Word)
  | halt
  deriving DecidableEq, Repr

/-- RESOLVE of an instruction, every parameter in index order (30_encoding.md R76, R77, R78). -/
def resolveInstr (s : State) : Instr → Except Raise Resolved
  | .add a b dst => (resolveThree a b dst s).map (fun p => .add p.1 p.2.1 p.2.2)
  | .mul a b dst => (resolveThree a b dst s).map (fun p => .mul p.1 p.2.1 p.2.2)
  | .input dst => (resolveAddr 1 dst s).map .input
  | .output a => (resolveValue 1 a s).map .output
  | .jumpIfTrue cond target => (resolveJump cond target s).map (fun p => .jumpIfTrue p.1 p.2)
  | .jumpIfFalse cond target => (resolveJump cond target s).map (fun p => .jumpIfFalse p.1 p.2)
  | .lessThan a b dst => (resolveThree a b dst s).map (fun p => .lessThan p.1 p.2.1 p.2.2)
  | .equals a b dst => (resolveThree a b dst s).map (fun p => .equals p.1 p.2.1 p.2.2)
  | .adjustBase a => (resolveValue 1 a s).map .adjustBase
  | .halt => .ok .halt

/-- EXECUTE of a resolved instruction, the opcode's `Effects_op` (40_execution_cycle.md R91). -/
def Resolved.effects (s : State) : Resolved → Except Raise Effects
  | .add x y d => addEffects x y d s
  | .mul x y d => mulEffects x y d s
  | .input d => inputEffects d s
  | .output x => outputEffects x s
  | .jumpIfTrue cond target => jumpIfTrueEffects cond target s
  | .jumpIfFalse cond target => jumpIfFalseEffects cond target s
  | .lessThan x y d => lessThanEffects x y d s
  | .equals x y d => equalsEffects x y d s
  | .adjustBase x => adjustBaseEffects x s
  | .halt => haltEffects s

/-- The phases with what each has been handed (40_execution_cycle.md R90). -/
inductive Phase where
  | fetch
  | decode (w : Word)
  | resolve (h : Header)
  | execute (r : Resolved)
  | commit (e : Effects)
  deriving DecidableEq, Repr

/-- The outcome of a phase: the next phase, the state is unchanged so far, or the instruction is
over with a state and an event, or with a fault. -/
inductive PhaseOutcome where
  | goto (p : Phase)
  | committed (t : State) (event : Event)
  | faulted (t : State)
  deriving DecidableEq, Repr

/-- A phase's result, a raise going to FAULTED (40_execution_cycle.md R90; 60_exceptions.md R126). -/
def PhaseOutcome.orFault (s : State) : Except Raise Phase → PhaseOutcome
  | .ok p => .goto p
  | .error x => .faulted (takeFault x s)

/-- One phase (40_execution_cycle.md R90). -/
def phaseStep (s : State) : Phase → PhaseOutcome
  | .fetch => .goto (.decode (memRead s s.ip))
  | .decode w => .orFault s ((decodeWord s.cfg w).map .resolve)
  | .resolve h => .orFault s ((resolveInstr s (h.withOperands (fetchWords s))).map .execute)
  | .execute r => .orFault s (((r.effects s).bind (Effects.check s)).map .commit)
  | .commit e => .committed (commit s e) e.event

/-- At most `n` phases, started in phase `p`. -/
def runPhases (s : State) : Nat → Phase → PhaseOutcome
  | 0, p => .goto p
  | n + 1, p =>
    match phaseStep s p with
    | .goto q => runPhases s n q
    | .committed t event => .committed t event
    | .faulted t => .faulted t

end Sys2Proof.Machine
end

