-- ==== Sys2Proof/Safety.lean ====
section
/-!
DEFINITION. The terms claims use: the invariant of every reachable state, safe runs, and what a
step leaves unchanged.
-/

namespace Sys2Proof.Machine

open Host (Outcome)

/-- The next state an outcome holds, if it is one. -/
def nextState? : Outcome State Fault Refusal → Option State
  | .next s => some s
  | .fault _ => none
  | .refused _ => none

/-- A core that may execute: neither halted nor faulted, the premise of `exec1`
(40_execution_cycle.md R91). -/
abbrev State.Running (s : State) : Prop :=
  s.halted = false ∧ s.fault = none

/-- The parameter index 60_exceptions.md R122 records with each code. -/
def FaultRecord.paramLegal (r : FaultRecord) : Bool :=
  match r.code with
  | .badOpcode => r.param == 0
  | .badMode => r.param != 0
  | .immediateWrite => r.param != 0
  | .excessModeDigits => r.param == 0
  | .negativeAddress => r.param != 0
  | .negativeJumpTarget => r.param == 2
  | .arithOverflow => r.param == 0
  | .capacityExceeded => r.param == 1 || r.param == 3

/-- What holds of every reachable state (10_state.md R36 and the widths and bounds of R22 to R31). -/
structure State.Inv (s : State) : Prop where
  /-- 20_memory.md R46. -/
  capacity : s.cfg.wf
  /-- The memory is in canonical form. -/
  canonical : s.mem.wf
  /-- Every cell at or beyond `memLen` holds 0 (10_state.md R21). -/
  cellsBelow : ∀ c ∈ s.mem, c.1 < s.memLen
  /-- 10_state.md R22. -/
  length : s.memLen ≤ s.cfg.memCapacity
  /-- `ip` fits its 64 bits (10_state.md R23). -/
  ipWidth : s.ip < 2 ^ 64
  /-- The legal values of `ip` (10_state.md R31), which R52 derives for a jump target that is a
  signed word, so under `JUMP_TARGET = VALUE` (assumption log 8). -/
  ipLegal : s.cfg.jumpTarget = .value → s.ip ≤ 2 ^ 63 + 3
  /-- 10_state.md R25. -/
  queue : ∀ depth, s.cfg.inqDepth = some depth → s.inq.length ≤ depth
  /-- `halted` and a fault never both hold (10_state.md R36). -/
  exclusive : s.halted = true → s.fault = none
  /-- BUSY is a control state apart from HALTED and FAULTED (10_state.md R35). -/
  busyRunning : s.busy = true → s.halted = false ∧ s.fault = none
  /-- A fault record is of the instruction at `ip` (60_exceptions.md R126), with the parameter index
  R122 gives its code. -/
  record : ∀ r, s.fault = some r → r.fip = s.ip ∧ r.paramLegal = true

/-- A run of `k` steps is safe when it ends without a fault record: it has neither left the model nor
faulted. -/
def SafeRun (k : Nat) (s : State) : Prop :=
  ∃ t, Sys2Proof.core.run k s = .next t ∧ t.fault = none

/-! ### Frames -/

/-- Every register and flag, the whole state but the memory and its length. -/
structure Registers where
  cfg : Config
  ip : Nat
  rb : Word
  inq : List Word
  latch : Word
  out : Word
  halted : Bool
  fault : Option FaultRecord
  busy : Bool
  deriving DecidableEq, Repr

/-- The registers of a state. -/
def State.registers (s : State) : Registers where
  cfg := s.cfg
  ip := s.ip
  rb := s.rb
  inq := s.inq
  latch := s.latch
  out := s.out
  halted := s.halted
  fault := s.fault
  busy := s.busy

/-- Every address reads as before and the length is the same. -/
structure State.MemoryKept (s t : State) : Prop where
  reads : ∀ a, memRead t a = memRead s a
  length : t.memLen = s.memLen

/-- The word `v` was stored at `d`: it reads back, every other address reads as before, and the
length covers `d` (20_memory.md R48, R51). -/
structure State.MemoryStored (s t : State) (d : Nat) (v : Word) : Prop where
  written : memRead t d = v
  elsewhere : ∀ a, a ≠ d → memRead t a = memRead s a
  length : t.memLen = max s.memLen (d + 1)

/-- The state after a fault of the instruction at `ip`: the record and the control state, nothing
else (60_exceptions.md R126). -/
def State.faultedWith (s : State) (code : FaultCode) (param : Fin 4) : State :=
  { s with fault := some ⟨code, param, s.ip, memRead s s.ip⟩, busy := false }

/-! ### The vocabulary of the encoding rules -/

/-- The roles of parameters (30_encoding.md R72). -/
inductive Role where
  | value
  | write
  deriving DecidableEq, Repr

/-- The parameters' roles of each opcode, in order, none for a number that is no opcode
(30_encoding.md R72). -/
def rolesOf (jumpTarget : JumpTarget) : Nat → Option (List Role)
  | 1 => some [.value, .value, .write]
  | 2 => some [.value, .value, .write]
  | 3 => some [.write]
  | 4 => some [.value]
  | 5 => some [.value, if jumpTarget = .value then .value else .write]
  | 6 => some [.value, if jumpTarget = .value then .value else .write]
  | 7 => some [.value, .value, .write]
  | 8 => some [.value, .value, .write]
  | 9 => some [.value]
  | 99 => some []
  | _ => none

/-- Whether parameter `i` with a role passes its decode checks in the instruction word `w`
(30_encoding.md R69, R70). -/
def paramPasses (w : Nat) (i : Nat) (r : Role) : Bool :=
  decide (digit w (i + 1) ≤ 2) && !(decide (r = .write) && decide (digit w (i + 1) = 1))

/-- The mode digits and raw operands of an instruction's parameters, in order. -/
def paramsOf : Instr → List (Nat × Word)
  | .add a b dst => [(a.mode.toDigit, a.raw), (b.mode.toDigit, b.raw), (dst.mode.toDigit, dst.raw)]
  | .mul a b dst => [(a.mode.toDigit, a.raw), (b.mode.toDigit, b.raw), (dst.mode.toDigit, dst.raw)]
  | .input dst => [(dst.mode.toDigit, dst.raw)]
  | .output a => [(a.mode.toDigit, a.raw)]
  | .jumpIfTrue cond target => [(cond.mode.toDigit, cond.raw), (target.mode.toDigit, target.raw)]
  | .jumpIfFalse cond target => [(cond.mode.toDigit, cond.raw), (target.mode.toDigit, target.raw)]
  | .lessThan a b dst => [(a.mode.toDigit, a.raw), (b.mode.toDigit, b.raw), (dst.mode.toDigit, dst.raw)]
  | .equals a b dst => [(a.mode.toDigit, a.raw), (b.mode.toDigit, b.raw), (dst.mode.toDigit, dst.raw)]
  | .adjustBase a => [(a.mode.toDigit, a.raw)]
  | .halt => []

/-- The 99 legal instruction words at the default configuration, row by row as
spec/opcode_table.json lists them (30_encoding.md R81). -/
def legalWordsDefault : List Nat :=
  [1, 101, 201, 1001, 1101, 1201, 2001, 2101, 2201, 20001, 20101, 20201, 21001, 21101, 21201, 22001, 22101, 22201]
  ++ [2, 102, 202, 1002, 1102, 1202, 2002, 2102, 2202, 20002, 20102, 20202, 21002, 21102, 21202, 22002, 22102, 22202]
  ++ [3, 203] ++ [4, 104, 204]
  ++ [5, 105, 205, 1005, 1105, 1205, 2005, 2105, 2205]
  ++ [6, 106, 206, 1006, 1106, 1206, 2006, 2106, 2206]
  ++ [7, 107, 207, 1007, 1107, 1207, 2007, 2107, 2207, 20007, 20107, 20207, 21007, 21107, 21207, 22007, 22107, 22207]
  ++ [8, 108, 208, 1008, 1108, 1208, 2008, 2108, 2208, 20008, 20108, 20208, 21008, 21108, 21208, 22008, 22108, 22208]
  ++ [9, 109, 209] ++ [99]

/-- The 93 legal instruction words with `JUMP_TARGET = ADDRESS` (30_encoding.md R81;
spec/opcode_table.json). -/
def legalWordsAddress : List Nat :=
  legalWordsDefault.filter (fun w => !(decide (w ∈ [1005, 1105, 1205, 1006, 1106, 1206])))

/-- Whether a parameter in a mode has a negative effective address (30_encoding.md R75; 20_memory.md
R50). -/
def negativeEA (s : State) (raw : Word) : Mode → Prop
  | .position => raw.toInt < 0
  | .immediate => False
  | .relative => s.rb.toInt + raw.toInt < 0

/-! ### The table of faults -/

/-- The faults an instruction that has been decoded may raise, with the parameter index
(60_exceptions.md R123). -/
def mayRaise (jumpTarget : JumpTarget) (i : Instr) (code : FaultCode) (param : Fin 4) : Bool :=
  match code with
  | .badOpcode => false
  | .badMode => false
  | .immediateWrite => false
  | .excessModeDigits => false
  | .negativeAddress => decide (1 ≤ param.val ∧ param.val ≤ (paramsOf i).length)
  | .negativeJumpTarget =>
    match i with
    | .jumpIfTrue _ _ => decide (jumpTarget = .value) && param == 2
    | .jumpIfFalse _ _ => decide (jumpTarget = .value) && param == 2
    | .add _ _ _ | .mul _ _ _ | .input _ | .output _ | .lessThan _ _ _ | .equals _ _ _ | .adjustBase _ | .halt => false
  | .arithOverflow =>
    match i with
    | .add _ _ _ | .mul _ _ _ | .adjustBase _ => param == 0
    | .input _ | .output _ | .jumpIfTrue _ _ | .jumpIfFalse _ _ | .lessThan _ _ _ | .equals _ _ _ | .halt => false
  | .capacityExceeded =>
    match i with
    | .add _ _ _ | .mul _ _ _ | .lessThan _ _ _ | .equals _ _ _ => param == 3
    | .input _ => param == 1
    | .output _ | .jumpIfTrue _ _ | .jumpIfFalse _ _ | .adjustBase _ | .halt => false

end Sys2Proof.Machine
end

