-- ==== Sys2Proof/Certificates/Slice0/Obligations.lean ====
section
/-!
DEFINITION. The statements for the provers.

Every statement quantifies over the configuration, which `State.cfg` carries. `busy` is the model's
bit of the control state (10_state.md R35; assumption log 5): true after an instruction whose event
is NONE, false after an output, a halt or a fault.
-/

open Sys2Proof Sys2Proof.Machine

/-! ### Reset and the host's commands -/

/-- 10_state.md R40 for the empty image, the initial state 70_reset_and_hazards.md R143 permits. The
choice of that state and of `Config.default`'s `MEM_CAPACITY` is the model's (assumption logs 3, 4). -/
def Obligations.ResetIsTheEmptyLoadState : Prop :=
  (∀ a, memRead State.reset a = 0) ∧
  State.reset.memLen = 0 ∧
  State.reset.registers =
    { cfg := Config.default, ip := 0, rb := 0, inq := [], latch := 0, out := 0, halted := false,
      fault := none, busy := false } ∧
  State.reset.control = .idle ∧
  ∀ (budget : Nat) (s : State), s.control ≠ .busy → s.cfg = Config.default →
    command budget (.load []) s = .next (State.reset, .ok)

/-- 70_reset_and_hazards.md R141. -/
def Obligations.LoadEntersTheResetStateOfItsImage : Prop :=
  ∀ (budget : Nat) (image : List Word) (s : State),
    s.control ≠ .busy → image.length ≤ s.cfg.memCapacity →
    ∃ t, command budget (.load image) s = .next (t, .ok) ∧
      (∀ a, memRead t a = if h : a < image.length then image[a] else 0) ∧
      t.memLen = image.length ∧
      t.registers =
        { cfg := s.cfg, ip := 0, rb := 0, inq := [], latch := 0, out := 0, halted := false,
          fault := none, busy := false } ∧
      t.control = .idle

/-- 40_execution_cycle.md R104; 70_reset_and_hazards.md R144. -/
def Obligations.OversizedLoadIsRefused : Prop :=
  ∀ (budget : Nat) (image : List Word) (s : State),
    s.control ≠ .busy → s.cfg.memCapacity < image.length →
    command budget (.load image) s = .next (s, .refused)

/-- 70_reset_and_hazards.md R142: the first instruction after LOAD is the one at address 0 of the
image. -/
def Obligations.LoadedProgramStartsAtAddressZero : Prop :=
  ∀ (budget : Nat) (image : List Word) (s t : State),
    command budget (.load image) s = .next (t, .ok) →
    (∀ i, decode s.cfg (fun k => image.getD k 0) = .ok i → step t = exec i t) ∧
    (∀ x, decode s.cfg (fun k => image.getD k 0) = .error x →
      step t = .next { t with fault := some ⟨x.code, x.param, 0, image.getD 0 0⟩, busy := false })

/-- 40_execution_cycle.md R99. -/
def Obligations.FeedAppendsUnlessTheQueueIsFull : Prop :=
  ∀ (budget : Nat) (v : Word) (s : State), s.control ≠ .busy →
    (∀ depth, s.cfg.inqDepth = some depth → s.inq.length = depth →
      command budget (.feed v) s = .next (s, .refused)) ∧
    (∀ depth, s.cfg.inqDepth = some depth → s.inq.length ≠ depth →
      command budget (.feed v) s = .next ({ s with inq := s.inq ++ [v] }, .ok)) ∧
    (s.cfg.inqDepth = none →
      command budget (.feed v) s = .next ({ s with inq := s.inq ++ [v] }, .ok))

/-- 40_execution_cycle.md R100. -/
def Obligations.SetLatchWritesTheLatchOnly : Prop :=
  ∀ (budget : Nat) (v : Word) (s : State), s.control ≠ .busy →
    command budget (.setLatch v) s = .next ({ s with latch := v }, .ok)

/-- 40_execution_cycle.md R103, with the read of 20_memory.md R47. -/
def Obligations.PeekAnswersTheWordAndChangesNothing : Prop :=
  ∀ (budget : Nat) (a : BitVec 64) (s : State), s.control ≠ .busy →
    command budget (.peek a) s = .next (s, .data (memRead s a.toNat)) ∧
    (s.memLen ≤ a.toNat → memRead s a.toNat = 0) ∧
    (a.toNat < s.memLen → memRead s a.toNat = s.mem.lookup a.toNat)

/-- 40_execution_cycle.md R101. -/
def Obligations.PokeStoresBelowTheCapacityElseIsRefused : Prop :=
  ∀ (budget : Nat) (a : BitVec 64) (v : Word) (s : State), s.control ≠ .busy →
    (a.toNat < s.cfg.memCapacity →
      ∃ t, command budget (.poke a v) s = .next (t, .ok) ∧
        s.MemoryStored t a.toNat v ∧ t.registers = s.registers) ∧
    (s.cfg.memCapacity ≤ a.toNat → command budget (.poke a v) s = .next (s, .refused))

/-- 40_execution_cycle.md R97 and R98; the core's own step changes nothing either. -/
def Obligations.StepOfAHaltedOrFaultedCoreExecutesNothing : Prop :=
  ∀ (budget : Nat) (s : State),
    (s.fault ≠ none → step s = .next s ∧ command budget .step s = .next (s, .fault)) ∧
    (s.fault = none → s.halted = true → step s = .next s ∧
      (s.cfg.postHaltStep = .noop → command budget .step s = .next (s, .postHaltNoop)) ∧
      (s.cfg.postHaltStep = .error → command budget .step s = .next (s, .postHaltError)))

/-- 10_state.md R35's control states and R39's port, with the numeric codes of 60_exceptions.md
R122. -/
def Obligations.StatusPortShowsTheState : Prop :=
  ∀ s : State,
    s.status.busy = decide (s.control = .busy) ∧
    s.status.halted = s.halted ∧
    s.status.lastOutput = s.out ∧
    s.status.faulted = decide (s.fault ≠ none) ∧
    (∀ r, s.fault = some r → s.status.faultFields = some ⟨r.code.number, r.param, r.fip, r.fword⟩) ∧
    (s.fault ≠ none → s.control = .faulted) ∧
    (s.fault = none → s.halted = true → s.control = .halted) ∧
    (s.fault = none → s.halted = false → s.busy = true → s.control = .busy) ∧
    (s.fault = none → s.halted = false → s.busy = false → s.control = .idle) ∧
    FaultCode.badOpcode.number = 1 ∧ FaultCode.badMode.number = 2 ∧
    FaultCode.immediateWrite.number = 3 ∧ FaultCode.excessModeDigits.number = 4 ∧
    FaultCode.negativeAddress.number = 5 ∧ FaultCode.negativeJumpTarget.number = 6 ∧
    FaultCode.arithOverflow.number = 7 ∧ FaultCode.capacityExceeded.number = 8

/-- A command while BUSY is refused by name: the model's choice for what 40_execution_cycle.md R94
leaves outside the spec (assumption log 10). -/
def Obligations.CommandWhileBusyIsRefusedByName : Prop :=
  ∀ (budget : Nat) (c : Command) (s : State), s.control = .busy →
    command budget c s = .refused .hostCommandWhileBusy

/-- 10_state.md R28, R29 and R36; 60_exceptions.md R128: only LOAD leaves the halted and the faulted
state, and the registers instructions write stay as they are. -/
def Obligations.OnlyLoadLeavesAHaltedOrFaultedCore : Prop :=
  ∀ (budget : Nat) (c : Command) (s t : State) (r : Response),
    (∀ image, c ≠ .load image) → (s.halted = true ∨ s.fault ≠ none) →
    command budget c s = .next (t, r) →
    t.halted = s.halted ∧ t.fault = s.fault ∧ t.ip = s.ip ∧ t.rb = s.rb ∧ t.out = s.out

/-! ### Memory and operands -/

/-- 20_memory.md R51 for a growing write; the capacity check and the in-place store are R48's, which
the spec marks as its own decision D3. -/
def Obligations.MemoryWriteGrowsAndZeroFills : Prop :=
  ∀ (p : Fin 4) (k : Nat) (v : Word) (s : State),
    (s.cfg.memCapacity ≤ k → memWrite p k v s = .error ⟨.capacityExceeded, p⟩) ∧
    (k < s.cfg.memCapacity → ∃ t, memWrite p k v s = .ok t ∧
      memRead t k = v ∧
      (∀ a, a ≠ k → memRead t a = memRead s a) ∧
      t.registers = s.registers ∧
      (k < s.memLen → t.memLen = s.memLen) ∧
      (s.memLen ≤ k → t.memLen = k + 1 ∧ ∀ a, s.memLen ≤ a → a < k → memRead t a = 0))

/-- 20_memory.md R63: a word stored through a relative-mode parameter is the one a position-mode
parameter with raw operand `rb + o` and the host's PEEK read. -/
def Obligations.ModesReachOneMemory : Prop :=
  ∀ (p i : Fin 4) (o r v : Word) (s t : State) (d : Nat),
    resolveAddr p ⟨.relative, o⟩ s = .ok d → memWrite p d v s = .ok t →
    r.toInt = s.rb.toInt + o.toInt →
    resolveValue i ⟨.position, r⟩ t = .ok v ∧
    ∀ budget, t.control ≠ .busy → command budget (.peek r) t = .next (t, .data v)

/-- 30_encoding.md R76 (with R75's exact effective address and 20_memory.md R50's fault). -/
def Obligations.ValueParametersResolveByMode : Prop :=
  ∀ (i : Fin 4) (raw : Word) (s : State),
    (raw.toInt < 0 → resolveValue i ⟨.position, raw⟩ s = .error ⟨.negativeAddress, i⟩) ∧
    (0 ≤ raw.toInt → resolveValue i ⟨.position, raw⟩ s = .ok (memRead s raw.toInt.toNat)) ∧
    resolveValue i ⟨.immediate, raw⟩ s = .ok raw ∧
    (s.rb.toInt + raw.toInt < 0 →
      resolveValue i ⟨.relative, raw⟩ s = .error ⟨.negativeAddress, i⟩) ∧
    (0 ≤ s.rb.toInt + raw.toInt →
      resolveValue i ⟨.relative, raw⟩ s = .ok (memRead s (s.rb.toInt + raw.toInt).toNat))

/-- 30_encoding.md R77. -/
def Obligations.WriteParametersResolveToAddresses : Prop :=
  ∀ (i : Fin 4) (raw : Word) (s : State),
    (raw.toInt < 0 → resolveAddr i ⟨.position, raw⟩ s = .error ⟨.negativeAddress, i⟩) ∧
    (0 ≤ raw.toInt → resolveAddr i ⟨.position, raw⟩ s = .ok raw.toInt.toNat) ∧
    (s.rb.toInt + raw.toInt < 0 →
      resolveAddr i ⟨.relative, raw⟩ s = .error ⟨.negativeAddress, i⟩) ∧
    (0 ≤ s.rb.toInt + raw.toInt →
      resolveAddr i ⟨.relative, raw⟩ s = .ok (s.rb.toInt + raw.toInt).toNat)

/-- 30_encoding.md R78: the target's legal modes and what each resolves to, under both settings. -/
def Obligations.JumpTargetsResolveByTheirSetting : Prop :=
  ∀ (p : ValueParam) (s : State),
    (s.cfg.jumpTarget = .value →
      p.legalTarget s.cfg = true ∧
      (∀ x, resolveValue 2 p s = .ok x → resolveTarget p s = .ok x.toInt) ∧
      (∀ x, resolveValue 2 p s = .error x → resolveTarget p s = .error x)) ∧
    (s.cfg.jumpTarget = .address →
      (p.legalTarget s.cfg = true ↔ p.mode ≠ .immediate) ∧
      (p.mode = .immediate → resolveTarget p s = .error ⟨.immediateWrite, 2⟩) ∧
      (∀ m : WriteMode, p.mode = m.toMode →
        (∀ d, resolveAddr 2 ⟨m, p.raw⟩ s = .ok d → resolveTarget p s = .ok (d : Int)) ∧
        (∀ x, resolveAddr 2 ⟨m, p.raw⟩ s = .error x → resolveTarget p s = .error x)))

/-- 00_scope.md R12. -/
def Obligations.ArithBringsResultsIntoRange : Prop :=
  ∀ (c : Config) (v : Int),
    (-(2 ^ 63) ≤ v ∧ v ≤ 2 ^ 63 - 1 → ∃ r, arith c v = .ok r ∧ r.toInt = v) ∧
    (¬ (-(2 ^ 63) ≤ v ∧ v ≤ 2 ^ 63 - 1) → c.overflowMode = .fault →
      arith c v = .error ⟨.arithOverflow, 0⟩) ∧
    (¬ (-(2 ^ 63) ≤ v ∧ v ≤ 2 ^ 63 - 1) → c.overflowMode = .wrap → arith c v = .ok (wrap64 v)) ∧
    (∀ r : Word, (2 ^ 64 : Int) ∣ r.toInt - v ↔ r = wrap64 v)

/-! ### The instructions: results, completion and frames -/

/-- 41_arithmetic.md R110: add stores the exact sum, or its residue where `OVERFLOW_MODE = WRAP`. -/
def Obligations.AddStoresTheSum : Prop :=
  ∀ (a b : ValueParam) (dst : WriteParam) (s : State) (x y : Word) (d : Nat),
    resolveValue 1 a s = .ok x → resolveValue 2 b s = .ok y → resolveAddr 3 dst s = .ok d →
    d < s.cfg.memCapacity → (inI64 (x.toInt + y.toInt) ∨ s.cfg.overflowMode = .wrap) →
    ∃ t r, exec (.add a b dst) s = .next t ∧ s.MemoryStored t d r ∧
      (inI64 (x.toInt + y.toInt) → r.toInt = x.toInt + y.toInt) ∧
      (2 ^ 64 : Int) ∣ r.toInt - (x.toInt + y.toInt) ∧
      t.registers = { s.registers with ip := s.ip + 4, busy := true }

/-- 41_arithmetic.md R111: mul stores the exact product, or its residue where
`OVERFLOW_MODE = WRAP`. -/
def Obligations.MulStoresTheProduct : Prop :=
  ∀ (a b : ValueParam) (dst : WriteParam) (s : State) (x y : Word) (d : Nat),
    resolveValue 1 a s = .ok x → resolveValue 2 b s = .ok y → resolveAddr 3 dst s = .ok d →
    d < s.cfg.memCapacity → (inI64 (x.toInt * y.toInt) ∨ s.cfg.overflowMode = .wrap) →
    ∃ t r, exec (.mul a b dst) s = .next t ∧ s.MemoryStored t d r ∧
      (inI64 (x.toInt * y.toInt) → r.toInt = x.toInt * y.toInt) ∧
      (2 ^ 64 : Int) ∣ r.toInt - (x.toInt * y.toInt) ∧
      t.registers = { s.registers with ip := s.ip + 4, busy := true }

/-- 44_compare.md R116: the signed comparison stores 1 or 0. -/
def Obligations.LessThanStoresTheTruthValue : Prop :=
  ∀ (a b : ValueParam) (dst : WriteParam) (s : State) (x y : Word) (d : Nat),
    resolveValue 1 a s = .ok x → resolveValue 2 b s = .ok y → resolveAddr 3 dst s = .ok d →
    d < s.cfg.memCapacity →
    ∃ t, exec (.lessThan a b dst) s = .next t ∧
      s.MemoryStored t d (if x.toInt < y.toInt then 1 else 0) ∧
      t.registers = { s.registers with ip := s.ip + 4, busy := true }

/-- 44_compare.md R117: the comparison stores 1 or 0. -/
def Obligations.EqualsStoresTheTruthValue : Prop :=
  ∀ (a b : ValueParam) (dst : WriteParam) (s : State) (x y : Word) (d : Nat),
    resolveValue 1 a s = .ok x → resolveValue 2 b s = .ok y → resolveAddr 3 dst s = .ok d →
    d < s.cfg.memCapacity →
    ∃ t, exec (.equals a b dst) s = .next t ∧
      s.MemoryStored t d (if x.toInt = y.toInt then 1 else 0) ∧
      t.registers = { s.registers with ip := s.ip + 4, busy := true }

/-- 42_io.md R112: the oldest queue entry, popped, or the latch, kept, when the queue is empty. -/
def Obligations.InputStoresTheQueueHeadOrTheLatch : Prop :=
  ∀ (dst : WriteParam) (s : State) (d : Nat),
    resolveAddr 1 dst s = .ok d → d < s.cfg.memCapacity →
    (∀ v q, s.inq = v :: q → ∃ t, exec (.input dst) s = .next t ∧ s.MemoryStored t d v ∧
      t.registers = { s.registers with ip := s.ip + 2, inq := q, busy := true }) ∧
    (s.inq = [] → ∃ t, exec (.input dst) s = .next t ∧ s.MemoryStored t d s.latch ∧
      t.registers = { s.registers with ip := s.ip + 2, busy := true })

/-- 42_io.md R113: output writes the latch, moves past itself and leaves BUSY, and nothing else. -/
def Obligations.OutputLatchesTheValueAndSuspends : Prop :=
  ∀ (a : ValueParam) (s : State) (x : Word), resolveValue 1 a s = .ok x →
    exec (.output a) s = .next { s with ip := s.ip + 2, out := x, busy := false }

/-- 43_jumps.md R114, a jump that is taken to a nonnegative target or not taken, and nothing else
changed. -/
def Obligations.JumpIfTrueSetsIpWhenNonzero : Prop :=
  ∀ (cond target : ValueParam) (s : State) (c : Word) (g : Int),
    target.legalTarget s.cfg = true → resolveValue 1 cond s = .ok c → resolveTarget target s = .ok g →
    (c.toInt ≠ 0 → 0 ≤ g →
      exec (.jumpIfTrue cond target) s = .next { s with ip := g.toNat, busy := true }) ∧
    (c.toInt = 0 → exec (.jumpIfTrue cond target) s = .next { s with ip := s.ip + 3, busy := true })

/-- 43_jumps.md R115, as for jump-if-true with the condition reversed. -/
def Obligations.JumpIfFalseSetsIpWhenZero : Prop :=
  ∀ (cond target : ValueParam) (s : State) (c : Word) (g : Int),
    target.legalTarget s.cfg = true → resolveValue 1 cond s = .ok c → resolveTarget target s = .ok g →
    (c.toInt = 0 → 0 ≤ g →
      exec (.jumpIfFalse cond target) s = .next { s with ip := g.toNat, busy := true }) ∧
    (c.toInt ≠ 0 → exec (.jumpIfFalse cond target) s = .next { s with ip := s.ip + 3, busy := true })

/-- 45_base_and_halt.md R118: the exact sum, or its residue where `OVERFLOW_MODE = WRAP`, to `rb`,
and nothing else changed. -/
def Obligations.AdjustBaseAddsToTheBase : Prop :=
  ∀ (a : ValueParam) (s : State) (x : Word), resolveValue 1 a s = .ok x →
    (inI64 (s.rb.toInt + x.toInt) ∨ s.cfg.overflowMode = .wrap) →
    ∃ r, exec (.adjustBase a) s = .next { s with ip := s.ip + 2, rb := r, busy := true } ∧
      (inI64 (s.rb.toInt + x.toInt) → r.toInt = s.rb.toInt + x.toInt) ∧
      (2 ^ 64 : Int) ∣ r.toInt - (s.rb.toInt + x.toInt)

/-- 45_base_and_halt.md R119: halt sets the flag, leaves `ip`, and leaves BUSY. -/
def Obligations.HaltSetsTheFlagAndKeepsIp : Prop :=
  ∀ s : State, exec .halt s = .next { s with halted := true, busy := false }

/-! ### Where the instructions fault -/

/-- 00_scope.md R12; 41_arithmetic.md R110, R111; 45_base_and_halt.md R118: out of range under
`OVERFLOW_MODE = FAULT`, and before the capacity check (60_exceptions.md R124). -/
def Obligations.OverflowFaultsUnderFaultMode : Prop :=
  ∀ s : State, s.cfg.overflowMode = .fault →
    (∀ a b dst x y d, resolveValue 1 a s = .ok x → resolveValue 2 b s = .ok y →
      resolveAddr 3 dst s = .ok d →
      (¬ inI64 (x.toInt + y.toInt) →
        exec (.add a b dst) s = .next (s.faultedWith .arithOverflow 0)) ∧
      (¬ inI64 (x.toInt * y.toInt) →
        exec (.mul a b dst) s = .next (s.faultedWith .arithOverflow 0))) ∧
    (∀ a x, resolveValue 1 a s = .ok x → ¬ inI64 (s.rb.toInt + x.toInt) →
      exec (.adjustBase a) s = .next (s.faultedWith .arithOverflow 0))

/-- 20_memory.md R48; 60_exceptions.md R122: a write address at or beyond `MEM_CAPACITY`, in each of
the five instructions that store; the queue keeps its head. -/
def Obligations.StoresBeyondCapacityFault : Prop :=
  ∀ (s : State) (d : Nat), s.cfg.memCapacity ≤ d →
    (∀ a b dst x y, resolveValue 1 a s = .ok x → resolveValue 2 b s = .ok y →
      resolveAddr 3 dst s = .ok d →
      (inI64 (x.toInt + y.toInt) ∨ s.cfg.overflowMode = .wrap →
        exec (.add a b dst) s = .next (s.faultedWith .capacityExceeded 3)) ∧
      (inI64 (x.toInt * y.toInt) ∨ s.cfg.overflowMode = .wrap →
        exec (.mul a b dst) s = .next (s.faultedWith .capacityExceeded 3)) ∧
      exec (.lessThan a b dst) s = .next (s.faultedWith .capacityExceeded 3) ∧
      exec (.equals a b dst) s = .next (s.faultedWith .capacityExceeded 3)) ∧
    (∀ dst, resolveAddr 1 dst s = .ok d →
      exec (.input dst) s = .next (s.faultedWith .capacityExceeded 1))

/-- 20_memory.md R50; 60_exceptions.md R124: a negative effective address faults with the lowest
parameter that has one, whatever the operands' values, and a jump that is not taken still resolves
its target (43_jumps.md R114). -/
def Obligations.NegativeAddressFaultsLowestParameterFirst : Prop :=
  ∀ s : State,
    (∀ (a b : ValueParam) (dst : WriteParam),
      ∀ i ∈ [Instr.add a b dst, .mul a b dst, .lessThan a b dst, .equals a b dst],
        (negativeEA s a.raw a.mode → exec i s = .next (s.faultedWith .negativeAddress 1)) ∧
        (¬ negativeEA s a.raw a.mode → negativeEA s b.raw b.mode →
          exec i s = .next (s.faultedWith .negativeAddress 2)) ∧
        (¬ negativeEA s a.raw a.mode → ¬ negativeEA s b.raw b.mode →
          negativeEA s dst.raw dst.mode.toMode →
          exec i s = .next (s.faultedWith .negativeAddress 3))) ∧
    (∀ dst : WriteParam, negativeEA s dst.raw dst.mode.toMode →
      exec (.input dst) s = .next (s.faultedWith .negativeAddress 1)) ∧
    (∀ a : ValueParam, negativeEA s a.raw a.mode →
      exec (.output a) s = .next (s.faultedWith .negativeAddress 1) ∧
      exec (.adjustBase a) s = .next (s.faultedWith .negativeAddress 1)) ∧
    (∀ cond target : ValueParam, target.legalTarget s.cfg = true →
      ∀ i ∈ [Instr.jumpIfTrue cond target, .jumpIfFalse cond target],
        (negativeEA s cond.raw cond.mode → exec i s = .next (s.faultedWith .negativeAddress 1)) ∧
        (¬ negativeEA s cond.raw cond.mode → negativeEA s target.raw target.mode →
          exec i s = .next (s.faultedWith .negativeAddress 2)))

/-- 43_jumps.md R114, R115: a taken jump to a negative target faults. -/
def Obligations.TakenJumpToANegativeTargetFaults : Prop :=
  ∀ (cond target : ValueParam) (s : State) (c : Word) (g : Int),
    target.legalTarget s.cfg = true → resolveValue 1 cond s = .ok c →
    resolveTarget target s = .ok g → g < 0 →
    (c.toInt ≠ 0 →
      exec (.jumpIfTrue cond target) s = .next (s.faultedWith .negativeJumpTarget 2)) ∧
    (c.toInt = 0 →
      exec (.jumpIfFalse cond target) s = .next (s.faultedWith .negativeJumpTarget 2))

/-- 30_encoding.md R78 under `ADDRESS`: a jump term whose target is immediate has no word; executed as
a term, it takes the fault the decoder raises for that word (assumption log 12). -/
def Obligations.IllFormedJumpTargetTakesTheDecodersFault : Prop :=
  ∀ (cond target : ValueParam) (s : State), target.legalTarget s.cfg = false →
    ∀ i ∈ [Instr.jumpIfTrue cond target, .jumpIfFalse cond target],
      i.wellFormed s.cfg = false ∧ exec i s = .next (s.faultedWith .immediateWrite 2)

/-- 60_exceptions.md R123: a decoded instruction raises no fault its column of the table denies. -/
def Obligations.InstructionsRaiseOnlyTheTablesFaults : Prop :=
  ∀ (i : Instr) (s t : State) (r : FaultRecord),
    i.wellFormed s.cfg = true → s.fault = none → exec i s = .next t → t.fault = some r →
    mayRaise s.cfg.jumpTarget i r.code r.param = true

/-! ### The step -/

/-- 40_execution_cycle.md R91: a step of a running core is the meaning of the instruction decoded
from the words at `ip`; nothing is added around it. -/
def Obligations.StepRunsTheDecodedInstruction : Prop :=
  ∀ (s : State) (i : Instr), s.Running →
    decode s.cfg (fun k => memRead s (s.ip + k)) = .ok i → step s = exec i s

/-- 60_exceptions.md R121, R126: a word the decoder rejects faults with the decoder's code and
parameter. -/
def Obligations.StepTakesTheDecodersFault : Prop :=
  ∀ (s : State) (x : Raise), s.Running →
    decode s.cfg (fun k => memRead s (s.ip + k)) = .error x →
    step s = .next (s.faultedWith x.code x.param)

/-- 60_exceptions.md R126: a faulting step writes the record and the control state, nothing else,
and the loop of STEP responds FAULT, within any bound that allows one instruction (assumption log 9). -/
def Obligations.FaultEntryWritesTheRecordOnly : Prop :=
  ∀ (s t : State) (r : FaultRecord), s.Running → step s = .next t → t.fault = some r →
    t = { s with fault := some r, busy := false } ∧
    r.fip = s.ip ∧ r.fword = memRead s s.ip ∧
    t.control = .faulted ∧
    ∀ budget, stepTransaction (budget + 1) s = .next (t, .fault)

/-- 20_memory.md R52: an instruction fetched at or beyond `memLen` is the word 0, an unknown
opcode. -/
def Obligations.FetchBeyondMemoryFaults : Prop :=
  ∀ s : State, s.Running → s.memLen ≤ s.ip →
    step s = .next { s with fault := some ⟨.badOpcode, 0, s.ip, 0⟩, busy := false }

/-- 10_state.md R21, R24 to R28: each register's one writer among the instructions, and what no step
writes. -/
def Obligations.EachRegisterHasItsOneWriter : Prop :=
  ∀ s t : State, step s = .next t →
    t.cfg = s.cfg ∧ t.latch = s.latch ∧
    (t.rb ≠ s.rb → ∃ a, decode s.cfg (fetchWords s) = .ok (.adjustBase a)) ∧
    (t.out ≠ s.out → ∃ a, decode s.cfg (fetchWords s) = .ok (.output a)) ∧
    (t.halted ≠ s.halted → decode s.cfg (fetchWords s) = .ok .halt ∧ t.halted = true) ∧
    (t.inq ≠ s.inq →
      ∃ dst, decode s.cfg (fetchWords s) = .ok (.input dst) ∧ ∃ v, s.inq = v :: t.inq) ∧
    ((∃ a, memRead t a ≠ memRead s a) →
      ∃ i, decode s.cfg (fetchWords s) = .ok i ∧ i.opcode ∈ [1, 2, 3, 7, 8])

/-- 10_state.md R22: only LOAD lowers the memory length. -/
def Obligations.MemoryLengthNeverShrinks : Prop :=
  (∀ s t : State, step s = .next t → s.memLen ≤ t.memLen) ∧
  ∀ (budget : Nat) (c : Command) (s t : State) (r : Response),
    (∀ image, c ≠ .load image) → command budget c s = .next (t, r) → s.memLen ≤ t.memLen

/-- 10_state.md R26: the latch reaches no instruction but an input that finds the queue empty. -/
def Obligations.LatchIsReadOnlyByInputOnAnEmptyQueue : Prop :=
  ∀ (s t : State) (v : Word), step s = .next t →
    (s.inq ≠ [] ∨ ∀ dst, decode s.cfg (fetchWords s) ≠ .ok (.input dst)) →
    step { s with latch := v } = .next { t with latch := v }

/-- 10_state.md R31: no instruction reads `out`, so a step changes nothing but `out` by it. -/
def Obligations.LastOutputReachesNoInstruction : Prop :=
  ∀ (s t : State) (v : Word), step s = .next t →
    ∃ w, step { s with out := v } = .next { t with out := w }

/-- 10_state.md R36 and the widths of R22 to R31 hold at `State.reset`. That the machine starts in this
state, the one LOAD([]) gives, and its `MEM_CAPACITY` of 2^63 are the model's choices (assumption logs
4 and 3; 70_reset_and_hazards.md R143). -/
def Obligations.ResetMeetsTheInvariant : Prop :=
  State.reset.Inv

/-- 10_state.md R36 and the widths of R22 to R31, with the memory's canonical form, are kept by
every step from every state that meets them. -/
def Obligations.StepKeepsTheInvariant : Prop :=
  ∀ s t : State, s.Inv → step s = .next t → t.Inv

/-- The same invariant is kept by every host command, a STEP transaction of any bound (assumption log 9)
included. -/
def Obligations.HostCommandsKeepTheInvariant : Prop :=
  ∀ (budget : Nat) (c : Command) (s t : State) (r : Response),
    s.Inv → command budget c s = .next (t, r) → t.Inv

/-- 40_execution_cycle.md R90: the five phases, run from FETCH, end in COMMIT or in a fault, with the
state one step gives and the control state the event names. That the phase machine stands beside State
and not in it is the model's choice (assumption log 15). -/
def Obligations.FivePhasesAreOneStep : Prop :=
  ∀ s : State, s.Running →
    (∃ t event, runPhases s 5 .fetch = .committed t event ∧ step s = .next t ∧ t.fault = none ∧
      (event = .none ↔ t.busy = true) ∧ (event = .halt ↔ t.halted = true)) ∨
    (∃ t, runPhases s 5 .fetch = .faulted t ∧ step s = .next t ∧ t.control = .faulted)

/-! ### The STEP transaction -/

/-- 40_execution_cycle.md R96, R107: STEP responds only after an output, a halt or a fault, with the
response that names it. The bound on its instructions is the model's choice (assumption log 9). -/
def Obligations.StepRespondsOnlyAtASuspension : Prop :=
  ∀ (budget : Nat) (s t : State) (r : Response), s.Running → stepCommand budget s = .next (t, r) →
    t.busy = false ∧ ∃ u, u.Running ∧ step u = .next t ∧
      ((∃ a, decode u.cfg (fetchWords u) = .ok (.output a) ∧ r = .output t.out ∧ t.Running) ∨
        (decode u.cfg (fetchWords u) = .ok .halt ∧ r = .halt ∧ t.halted = true ∧ t.fault = none) ∨
        (r = .fault ∧ t.fault ≠ none ∧ t.halted = false))

/-- The loop of STEP in 40_execution_cycle.md R96, without the two tests before it (R97, R98), is the run
of single steps up to the first one that leaves BUSY. The bound, and so the clause `k + 1 ≤ budget`, is
the model's choice (assumption log 9). -/
def Obligations.TransactionIsTheRunOfSteps : Prop :=
  ∀ (budget : Nat) (s t : State) (r : Response),
    stepTransaction budget s = .next (t, r) ↔
      ∃ k, k + 1 ≤ budget ∧ Sys2Proof.core.run (k + 1) s = .next t ∧ t.busy = false ∧
        r = stepResponse t ∧
        ∀ j u, j < k → Sys2Proof.core.run (j + 1) s = .next u → u.busy = true

/-- 00_scope.md R19; 40_execution_cycle.md R109: a STEP that responds has one response and one final
state, whatever the bound it was run with; the bound is the model's choice (assumption log 9). -/
def Obligations.StepHasOneOutcome : Prop :=
  ∀ (m n : Nat) (s : State) (x y : State × Response),
    stepCommand m s = .next x → stepCommand n s = .next y → x = y

/-- 40_execution_cycle.md R105, R106: runToCompletion returns the last of the outputs that
drainAllOutputs collects, or what `out` held if there was none, and ends in the same state. The bounds
are the model's choice (assumption log 9). -/
def Obligations.CompletionReturnsTheLastDrainedOutput : Prop :=
  ∀ (budget steps : Nat) (s t : State) (outs : List Word),
    (drainAllOutputs budget steps s = .next (t, .done outs) →
      runToCompletion budget steps s = .next (t, .done (outs.getLastD s.out))) ∧
    (∀ record, drainAllOutputs budget steps s = .next (t, .aborted record outs) →
      runToCompletion budget steps s = .next (t, .aborted record (outs.getLastD s.out)))

/-! ### Decoding and encoding -/

/-- Every well-formed instruction, with every operand, decodes from its own words, whatever words
follow (30_encoding.md R73, R80). -/
def Obligations.DecodeReadsBackEveryInstruction : Prop :=
  ∀ (c : Config) (i : Instr) (rest : List Word), i.wellFormed c = true →
    decode c (streamOf (encode i ++ rest)) = .ok i

/-- What decodes is well-formed and is encoded by the words it was read from: the raw operands, the
digits 0 to n + 1 of the instruction word, and the whole word under `EXCESS_DIGIT_MODE = FAULT`
(30_encoding.md R71, R73, R81). -/
def Obligations.DecodedInstructionsReencode : Prop :=
  ∀ (c : Config) (words : Nat → Word) (i : Instr), decode c words = .ok i →
    i.wellFormed c = true ∧
    (∀ k, 1 ≤ k → k < i.width → streamOf (encode i) k = words k) ∧
    (streamOf (encode i) 0).toNat = (words 0).toNat % 10 ^ (i.width + 1) ∧
    (c.excessDigitMode = .fault → streamOf (encode i) 0 = words 0)

/-- 30_encoding.md R85, with R66, R67, R69, R70 and R71: the checks in their order, and what the
decoder returns when all pass. -/
def Obligations.DecodeChecksInOrder : Prop :=
  ∀ (c : Config) (words : Nat → Word),
    ((words 0).toInt < 0 → decode c words = .error ⟨.badOpcode, 0⟩) ∧
    (0 ≤ (words 0).toInt → ∀ w, w = (words 0).toInt.toNat →
      (rolesOf c.jumpTarget (w % 100) = none → decode c words = .error ⟨.badOpcode, 0⟩) ∧
      (∀ roles, rolesOf c.jumpTarget (w % 100) = some roles →
        (∀ (i : Fin 4) (r : Role), 1 ≤ i.val → roles[i.val - 1]? = some r →
          (∀ j q, 1 ≤ j → j < i.val → roles[j - 1]? = some q → paramPasses w j q = true) →
          (2 < digit w (i.val + 1) → decode c words = .error ⟨.badMode, i⟩) ∧
          (r = .write → digit w (i.val + 1) = 1 → decode c words = .error ⟨.immediateWrite, i⟩)) ∧
        ((∀ j q, 1 ≤ j → roles[j - 1]? = some q → paramPasses w j q = true) →
          (c.excessDigitMode = .fault → w / 100 / 10 ^ roles.length ≠ 0 →
            decode c words = .error ⟨.excessModeDigits, 0⟩) ∧
          (c.excessDigitMode = .ignore ∨ w / 100 / 10 ^ roles.length = 0 →
            ∃ i, decode c words = .ok i ∧ i.opcode = w % 100 ∧ i.width = roles.length + 1 ∧
              paramsOf i = (List.range roles.length).map
                (fun k => (digit w (k + 2), words (k + 1)))))))

/-- 30_encoding.md R81 and spec/opcode_table.json: the legal instruction words under
`EXCESS_DIGIT_MODE = FAULT` are the 99 the table lists, 93 with `JUMP_TARGET = ADDRESS`. -/
def Obligations.LegalWordsAreTheTables : Prop :=
  (∀ (c : Config) (words : Nat → Word), c.excessDigitMode = .fault →
    (c.jumpTarget = .value →
      ((∃ i, decode c words = .ok i) ↔ (words 0).toNat ∈ legalWordsDefault)) ∧
    (c.jumpTarget = .address →
      ((∃ i, decode c words = .ok i) ↔ (words 0).toNat ∈ legalWordsAddress))) ∧
  legalWordsDefault.length = 99 ∧ legalWordsDefault.Nodup ∧ legalWordsAddress.length = 93

/-- 30_encoding.md R88: the pseudo-instructions' words, and `jmp #t` illegal under
`JUMP_TARGET = ADDRESS`. -/
def Obligations.PseudoInstructionsHaveTheirWords : Prop :=
  (∀ t : Word, encode (.jmp ⟨.immediate, t⟩) = [1105, 1, t]) ∧
  (∀ n : Word, encode (.jmp ⟨.position, n⟩) = [105, 1, n]) ∧
  (∀ (s : ValueParam) (d : WriteParam),
    encode (.mov s d) =
      [BitVec.ofNat 64 (1 + 100 * s.mode.toDigit + 1000 + 10000 * d.mode.toDigit), s.raw, 0, d.raw]) ∧
  encode .nop3 = [1106, 1, 0] ∧
  ∀ c : Config, c.jumpTarget = .address →
    (∀ t : Word, (Instr.jmp ⟨.immediate, t⟩).wellFormed c = false) ∧
    (∀ n : Word, (Instr.jmp ⟨.position, n⟩).wellFormed c = true)

/-- Words of the spec's examples decode to the instructions they stand for (30_encoding.md R87;
95_test_vectors.md section 3): a sanity statement. -/
def Obligations.ExampleWordsDecode : Prop :=
  decode Config.default (streamOf [1201, 5, -1, 20]) =
    .ok (.add ⟨.relative, 5⟩ ⟨.immediate, -1⟩ ⟨.position, 20⟩) ∧
  decode Config.default (streamOf [203, 7]) = .ok (.input ⟨.relative, 7⟩) ∧
  decode Config.default (streamOf [1105, 0, 4]) = .ok (.jumpIfTrue ⟨.immediate, 0⟩ ⟨.immediate, 4⟩) ∧
  decode Config.default (streamOf [21107, 0, 0, 0]) =
    .ok (.lessThan ⟨.immediate, 0⟩ ⟨.immediate, 0⟩ ⟨.relative, 0⟩) ∧
  decode Config.default (streamOf [109, -5]) = .ok (.adjustBase ⟨.immediate, -5⟩) ∧
  decode Config.default (streamOf [99]) = .ok .halt ∧
  decode Config.default (streamOf [199]) = .error ⟨.excessModeDigits, 0⟩ ∧
  decode Config.default (streamOf [30301, 0, 0, 0]) = .error ⟨.badMode, 1⟩
end

