-- ==== Sys2Proof/Laws/Encoding.lean ====
section
/-!
SUPPORT. The digits of encoded instruction words.
-/

namespace Sys2Proof

@[simp] theorem ofDigit_toDigit (m : Mode) : Mode.ofDigit m.toDigit = some m := by
  cases m <;> rfl

/-- A digit that names a mode is that mode's digit. -/
theorem toDigit_of_ofDigit {d : Nat} {m : Mode} (h : Mode.ofDigit d = some m) : m.toDigit = d := by
  unfold Mode.ofDigit at h
  split at h <;> cases h <;> rfl

theorem Mode.toDigit_le (m : Mode) : m.toDigit ≤ 2 := by
  cases m <;> decide

theorem WriteMode.toDigit_le (m : WriteMode) : m.toDigit ≤ 2 := by
  cases m <;> decide

@[simp] theorem toMode_toDigit (m : WriteMode) : m.toMode.toDigit = m.toDigit := by
  cases m <;> rfl

/-- An encoded word's value when its fields are digits. -/
theorem encodeWord_toNat {o m1 m2 m3 : Nat} (ho : o < 100) (h1 : m1 ≤ 2) (h2 : m2 ≤ 2) (h3 : m3 ≤ 2) :
    (encodeWord o m1 m2 m3).toNat = o + 100 * m1 + 1000 * m2 + 10000 * m3 := by
  unfold encodeWord
  rw [BitVec.toNat_ofNat, Nat.mod_eq_of_lt (by omega)]

/-- An encoded word's opcode. -/
theorem encodeWord_mod {o m1 m2 m3 : Nat} (ho : o < 100) (h1 : m1 ≤ 2) (h2 : m2 ≤ 2) (h3 : m3 ≤ 2) :
    (encodeWord o m1 m2 m3).toNat % 100 = o := by
  rw [encodeWord_toNat ho h1 h2 h3]
  omega

/-- A word is nonnegative exactly when it is below 2^63, and then its value is its bits. -/
theorem toInt_nonneg_iff (w : Word) : 0 ≤ w.toInt ↔ w.toNat < 2 ^ 63 := by
  rw [BitVec.toInt_eq_toNat_cond]
  have := w.isLt
  split <;> omega

theorem toInt_eq_toNat {w : Word} (h : 0 ≤ w.toInt) : w.toInt = w.toNat := by
  rw [BitVec.toInt_eq_toNat_cond] at *
  split <;> rename_i hs
  · rfl
  · rw [if_neg hs] at h
    have := w.isLt
    omega

/-- The fields of an encoded word come back as its digits. -/
theorem digits_encode {o m1 m2 m3 : Nat} (ho : o < 100) (h1 : m1 ≤ 2) (h2 : m2 ≤ 2) (h3 : m3 ≤ 2) :
    let w := o + 100 * m1 + 1000 * m2 + 10000 * m3
    w % 100 = o ∧ digit w 2 = m1 ∧ digit w 3 = m2 ∧ digit w 4 = m3 := by
  simp only [digit]
  norm_num
  refine ⟨?_, ?_, ?_, ?_⟩ <;> omega

/-! ### What each part of the decoder can do -/

theorem checkExcess_ok {c : Config} {w n : Nat} (h : checkExcess c w n = .ok ()) :
    c.excessDigitMode = .fault → w / 100 / 10 ^ n = 0 := by
  intro hc
  unfold checkExcess at h
  split at h
  · cases h
  · rename_i hn
    exact not_not.mp (fun h' => hn ⟨hc, h'⟩)

theorem valueMode_ok {w : Nat} {i : Fin 4} {m : Mode} (h : valueMode w i = .ok m) :
    digit w (i.val + 1) = m.toDigit := by
  unfold valueMode at h
  split at h
  · rename_i e
    cases h
    exact (toDigit_of_ofDigit e).symm
  · cases h

theorem writeMode_ok {w : Nat} {i : Fin 4} {m : WriteMode} (h : writeMode w i = .ok m) :
    digit w (i.val + 1) = m.toDigit := by
  unfold writeMode at h
  split at h <;> cases h <;> rename_i e <;> exact (toDigit_of_ofDigit e).symm

theorem targetMode_ok {c : Config} {w : Nat} {m : Mode} (h : targetMode c w = .ok m) :
    digit w 3 = m.toDigit ∧ (c.jumpTarget = .address → m ≠ .immediate) := by
  unfold targetMode at h
  split at h
  · rename_i hj
    exact ⟨valueMode_ok h, by simp [hj]⟩
  · cases e : writeMode w 2 with
    | error y => simp [e, Except.map] at h
    | ok y =>
      simp only [e, Except.map, Except.ok.injEq] at h
      subst h
      exact ⟨by simpa using writeMode_ok e, by cases y <;> simp [WriteMode.toMode]⟩

/-- A format F3 word that decodes has the digits of its modes. -/
theorem decodeF3_ok {c : Config} {w : Nat} {mk : Mode → Mode → WriteMode → Header} {h : Header}
    (hd : decodeF3 c w mk = .ok h) :
    ∃ a b d, h = mk a b d ∧ digit w 2 = a.toDigit ∧ digit w 3 = b.toDigit ∧ digit w 4 = d.toDigit ∧
      (c.excessDigitMode = .fault → w / 100 / 10 ^ 3 = 0) := by
  unfold decodeF3 at hd
  cases h1 : valueMode w 1 <;> rw [h1] at hd
  · cases hd
  cases h2 : valueMode w 2 <;> rw [h2] at hd
  · cases hd
  cases h3 : writeMode w 3 <;> rw [h3] at hd
  · cases hd
  cases h4 : checkExcess c w 3 <;> rw [h4] at hd <;> cases hd
  exact ⟨_, _, _, rfl, valueMode_ok h1, valueMode_ok h2, writeMode_ok h3, checkExcess_ok h4⟩

/-- A format F2 word that decodes has the digits of its modes. -/
theorem decodeF2_ok {c : Config} {w : Nat} {mk : Mode → Mode → Header} {h : Header}
    (hd : decodeF2 c w mk = .ok h) :
    ∃ a b, h = mk a b ∧ digit w 2 = a.toDigit ∧ digit w 3 = b.toDigit ∧
      (c.jumpTarget = .address → b ≠ .immediate) ∧
      (c.excessDigitMode = .fault → w / 100 / 10 ^ 2 = 0) := by
  unfold decodeF2 at hd
  cases h1 : valueMode w 1 <;> rw [h1] at hd
  · cases hd
  cases h2 : targetMode c w <;> rw [h2] at hd
  · cases hd
  cases h4 : checkExcess c w 2 <;> rw [h4] at hd <;> cases hd
  exact ⟨_, _, rfl, valueMode_ok h1, (targetMode_ok h2).1, (targetMode_ok h2).2, checkExcess_ok h4⟩

/-- A format F1 word with a value parameter that decodes has the digit of its mode. -/
theorem decodeF1Value_ok {c : Config} {w : Nat} {mk : Mode → Header} {h : Header}
    (hd : decodeF1Value c w mk = .ok h) :
    ∃ a, h = mk a ∧ digit w 2 = a.toDigit ∧ (c.excessDigitMode = .fault → w / 100 / 10 ^ 1 = 0) := by
  unfold decodeF1Value at hd
  cases h1 : valueMode w 1 <;> rw [h1] at hd
  · cases hd
  cases h4 : checkExcess c w 1 <;> rw [h4] at hd <;> cases hd
  exact ⟨_, rfl, valueMode_ok h1, checkExcess_ok h4⟩

/-- A format F1 word with a write parameter that decodes has the digit of its mode. -/
theorem decodeF1Write_ok {c : Config} {w : Nat} {mk : WriteMode → Header} {h : Header}
    (hd : decodeF1Write c w mk = .ok h) :
    ∃ a, h = mk a ∧ digit w 2 = a.toDigit ∧ (c.excessDigitMode = .fault → w / 100 / 10 ^ 1 = 0) := by
  unfold decodeF1Write at hd
  cases h1 : writeMode w 1 <;> rw [h1] at hd
  · cases hd
  cases h4 : checkExcess c w 1 <;> rw [h4] at hd <;> cases hd
  exact ⟨_, rfl, writeMode_ok h1, checkExcess_ok h4⟩

/-- A format F0 word that decodes has no excess digits where they fault. -/
theorem decodeF0_ok {c : Config} {w : Nat} {k h : Header} (hd : decodeF0 c w k = .ok h) :
    h = k ∧ (c.excessDigitMode = .fault → w / 100 / 10 ^ 0 = 0) := by
  unfold decodeF0 at hd
  cases h4 : checkExcess c w 0 <;> rw [h4] at hd <;> cases hd
  exact ⟨rfl, checkExcess_ok h4⟩

end Sys2Proof
end

