-- ==== Sys2Proof/Laws/State.lean ====
section
/-!
SUPPORT. What each state update does to each field, so that no proof unfolds a record update.
-/

namespace Sys2Proof.Machine

/-! ### storeWord -/

@[simp] theorem storeWord_cfg (a : Nat) (v : Word) (s : State) : (storeWord a v s).cfg = s.cfg := by
  unfold storeWord; split <;> rfl

@[simp] theorem storeWord_ip (a : Nat) (v : Word) (s : State) : (storeWord a v s).ip = s.ip := by
  unfold storeWord; split <;> rfl

@[simp] theorem storeWord_rb (a : Nat) (v : Word) (s : State) : (storeWord a v s).rb = s.rb := by
  unfold storeWord; split <;> rfl

@[simp] theorem storeWord_inq (a : Nat) (v : Word) (s : State) : (storeWord a v s).inq = s.inq := by
  unfold storeWord; split <;> rfl

@[simp] theorem storeWord_latch (a : Nat) (v : Word) (s : State) : (storeWord a v s).latch = s.latch := by
  unfold storeWord; split <;> rfl

@[simp] theorem storeWord_out (a : Nat) (v : Word) (s : State) : (storeWord a v s).out = s.out := by
  unfold storeWord; split <;> rfl

@[simp] theorem storeWord_halted (a : Nat) (v : Word) (s : State) : (storeWord a v s).halted = s.halted := by
  unfold storeWord; split <;> rfl

@[simp] theorem storeWord_fault (a : Nat) (v : Word) (s : State) : (storeWord a v s).fault = s.fault := by
  unfold storeWord; split <;> rfl

@[simp] theorem storeWord_busy (a : Nat) (v : Word) (s : State) : (storeWord a v s).busy = s.busy := by
  unfold storeWord; split <;> rfl

@[simp] theorem storeWord_memLen (a : Nat) (v : Word) (s : State) :
    (storeWord a v s).memLen = max s.memLen (a + 1) := by
  unfold storeWord
  split
  · simp only; omega
  · simp only; omega

/-! ### takeFault -/

@[simp] theorem takeFault_cfg (x : Raise) (s : State) : (takeFault x s).cfg = s.cfg := rfl

@[simp] theorem takeFault_mem (x : Raise) (s : State) : (takeFault x s).mem = s.mem := rfl

@[simp] theorem takeFault_memLen (x : Raise) (s : State) : (takeFault x s).memLen = s.memLen := rfl

@[simp] theorem takeFault_ip (x : Raise) (s : State) : (takeFault x s).ip = s.ip := rfl

@[simp] theorem takeFault_rb (x : Raise) (s : State) : (takeFault x s).rb = s.rb := rfl

@[simp] theorem takeFault_inq (x : Raise) (s : State) : (takeFault x s).inq = s.inq := rfl

@[simp] theorem takeFault_latch (x : Raise) (s : State) : (takeFault x s).latch = s.latch := rfl

@[simp] theorem takeFault_out (x : Raise) (s : State) : (takeFault x s).out = s.out := rfl

@[simp] theorem takeFault_halted (x : Raise) (s : State) : (takeFault x s).halted = s.halted := rfl

@[simp] theorem takeFault_fault (x : Raise) (s : State) :
    (takeFault x s).fault = some ⟨x.code, x.param, s.ip, memRead s s.ip⟩ := rfl

@[simp] theorem takeFault_busy (x : Raise) (s : State) : (takeFault x s).busy = false := rfl

/-! ### commit -/

/-- The memory and length a commit leaves are those of its write. -/
def storedBy (s : State) (e : Effects) : State :=
  match e.write with
  | none => s
  | some w => storeWord w.addr w.value s

@[simp] theorem commit_mem (s : State) (e : Effects) : (commit s e).mem = (storedBy s e).mem := rfl

@[simp] theorem commit_memLen (s : State) (e : Effects) : (commit s e).memLen = (storedBy s e).memLen := rfl

@[simp] theorem commit_ip (s : State) (e : Effects) : (commit s e).ip = e.ip := rfl

@[simp] theorem commit_rb (s : State) (e : Effects) : (commit s e).rb = e.rb := rfl

@[simp] theorem commit_out (s : State) (e : Effects) : (commit s e).out = e.out := rfl

@[simp] theorem commit_inq (s : State) (e : Effects) :
    (commit s e).inq = if e.pop then s.inq.tail else s.inq := rfl

@[simp] theorem commit_halted (s : State) (e : Effects) : (commit s e).halted = (s.halted || e.halted) := rfl

@[simp] theorem commit_busy (s : State) (e : Effects) : (commit s e).busy = decide (e.event = .none) := rfl

@[simp] theorem commit_cfg (s : State) (e : Effects) : (commit s e).cfg = s.cfg := by
  unfold commit; split <;> simp

@[simp] theorem commit_latch (s : State) (e : Effects) : (commit s e).latch = s.latch := by
  unfold commit; split <;> simp

@[simp] theorem commit_fault (s : State) (e : Effects) : (commit s e).fault = s.fault := by
  unfold commit; split <;> simp

/-! ### Effects -/

@[simp] theorem quiet_write (s : State) (ip : Nat) (ev : Event) : (Effects.quiet s ip ev).write = none := rfl

@[simp] theorem quiet_ip (s : State) (ip : Nat) (ev : Event) : (Effects.quiet s ip ev).ip = ip := rfl

@[simp] theorem quiet_rb (s : State) (ip : Nat) (ev : Event) : (Effects.quiet s ip ev).rb = s.rb := rfl

@[simp] theorem quiet_pop (s : State) (ip : Nat) (ev : Event) : (Effects.quiet s ip ev).pop = false := rfl

@[simp] theorem quiet_out (s : State) (ip : Nat) (ev : Event) : (Effects.quiet s ip ev).out = s.out := rfl

@[simp] theorem quiet_halted (s : State) (ip : Nat) (ev : Event) : (Effects.quiet s ip ev).halted = false := rfl

@[simp] theorem quiet_event (s : State) (ip : Nat) (ev : Event) : (Effects.quiet s ip ev).event = ev := rfl

@[simp] theorem storing_write (s : State) (n : Nat) (p : Fin 4) (a : Nat) (v : Word) :
    (Effects.storing s n p a v).write = some ⟨a, v, p⟩ := rfl

@[simp] theorem storing_ip (s : State) (n : Nat) (p : Fin 4) (a : Nat) (v : Word) :
    (Effects.storing s n p a v).ip = s.ip + n := rfl

@[simp] theorem storing_rb (s : State) (n : Nat) (p : Fin 4) (a : Nat) (v : Word) :
    (Effects.storing s n p a v).rb = s.rb := rfl

@[simp] theorem storing_pop (s : State) (n : Nat) (p : Fin 4) (a : Nat) (v : Word) :
    (Effects.storing s n p a v).pop = false := rfl

@[simp] theorem storing_out (s : State) (n : Nat) (p : Fin 4) (a : Nat) (v : Word) :
    (Effects.storing s n p a v).out = s.out := rfl

@[simp] theorem storing_halted (s : State) (n : Nat) (p : Fin 4) (a : Nat) (v : Word) :
    (Effects.storing s n p a v).halted = false := rfl

@[simp] theorem storing_event (s : State) (n : Nat) (p : Fin 4) (a : Nat) (v : Word) :
    (Effects.storing s n p a v).event = .none := rfl

end Sys2Proof.Machine
end

