-- ==== Sys2Proof/Laws/Memory.lean ====
section
/-!
SUPPORT. The memory's laws: read after write, and that every memory operation keeps the canonical
form.
-/

namespace Sys2Proof.Machine

/-! ### Lookup after each operation on cells -/

@[simp] theorem lookup_erase_same (m : Memory) (a : Nat) : (m.erase a).lookup a = Memory.unlisted := by
  unfold Memory.erase
  induction m with
  | nil => rfl
  | cons c m ih =>
    by_cases h : c.1 = a
    · simpa [h] using ih
    · simpa [h, Memory.lookup] using ih

@[simp] theorem lookup_erase_other (m : Memory) (a b : Nat) (h : b ≠ a) :
    (m.erase a).lookup b = m.lookup b := by
  unfold Memory.erase
  induction m with
  | nil => rfl
  | cons c m ih =>
    by_cases hc : c.1 = a
    · have : c.1 ≠ b := fun hb => h (hb ▸ hc)
      simpa [hc, Memory.lookup, this, Ne.symm h] using ih
    · by_cases hb : c.1 = b <;> simp_all [Memory.lookup]

/-- A lookup below a length does not see the cells at or beyond it. -/
theorem lookup_below_lt (m : Memory) (len : Nat) (a : Nat) (h : a < len) :
    (m.below len).lookup a = m.lookup a := by
  unfold Memory.below
  induction m with
  | nil => rfl
  | cons c m ih =>
    by_cases hc : c.1 < len
    · by_cases hb : c.1 = a <;> simp_all [Memory.lookup]
    · have : c.1 ≠ a := by omega
      simpa [hc, Memory.lookup, this] using ih

/-- Nothing is listed at or beyond the length cells were cut to. -/
theorem lookup_below_ge (m : Memory) (len : Nat) (a : Nat) (h : len ≤ a) :
    (m.below len).lookup a = Memory.unlisted := by
  unfold Memory.below
  induction m with
  | nil => rfl
  | cons c m ih =>
    by_cases hc : c.1 < len
    · have : c.1 ≠ a := by omega
      simpa [hc, Memory.lookup, this] using ih
    · simpa [hc] using ih

theorem lookup_insert_same (m : Memory) (a : Nat) (v : Word) (h : ∀ c ∈ m, c.1 ≠ a) :
    (Memory.insert a v m).lookup a = v := by
  induction m with
  | nil => simp [Memory.insert, Memory.lookup]
  | cons c m ih =>
    unfold Memory.insert
    split
    · simp [Memory.lookup]
    · have hc := h c (by simp)
      simpa [Memory.lookup, hc] using ih (fun d hd => h d (by simp [hd]))

theorem lookup_insert_other (m : Memory) (a b : Nat) (v : Word) (h : b ≠ a) :
    (Memory.insert a v m).lookup b = m.lookup b := by
  induction m with
  | nil => simp [Memory.insert, Memory.lookup, Ne.symm h]
  | cons c m ih =>
    unfold Memory.insert
    split
    · simp [Memory.lookup, Ne.symm h]
    · by_cases hb : c.1 = b <;> simp [Memory.lookup, hb, ih]

theorem mem_erase {m : Memory} {a : Nat} {c : Nat × Word} : c ∈ m.erase a ↔ c ∈ m ∧ c.1 ≠ a := by
  simp [Memory.erase]

theorem mem_below {m : Memory} {len : Nat} {c : Nat × Word} : c ∈ m.below len ↔ c ∈ m ∧ c.1 < len := by
  simp [Memory.below]

theorem mem_insert {m : Memory} {a : Nat} {v : Word} {c : Nat × Word} :
    c ∈ Memory.insert a v m ↔ c = (a, v) ∨ c ∈ m := by
  induction m with
  | nil => simp [Memory.insert]
  | cons d m ih =>
    unfold Memory.insert
    split
    · simp
    · simp [ih]; tauto

@[simp] theorem lookup_update_same (m : Memory) (a : Nat) (v : Word) : (m.update a v).lookup a = v := by
  unfold Memory.update
  split
  · rename_i h; simp [h]
  · exact lookup_insert_same _ _ _ (fun c hc => (mem_erase.mp hc).2)

@[simp] theorem lookup_update_other (m : Memory) (a b : Nat) (v : Word) (h : b ≠ a) :
    (m.update a v).lookup b = m.lookup b := by
  unfold Memory.update
  split
  · exact lookup_erase_other m a b h
  · rw [lookup_insert_other _ _ _ _ h, lookup_erase_other m a b h]

/-- A cell of an updated memory is the new one or an old one. -/
theorem mem_update {m : Memory} {a : Nat} {v : Word} {c : Nat × Word} (h : c ∈ m.update a v) :
    c = (a, v) ∨ c ∈ m := by
  unfold Memory.update at h
  split at h
  · exact .inr (mem_erase.mp h).1
  · exact (mem_insert.mp h).imp id (fun h => (mem_erase.mp h).1)

/-! ### The canonical form -/

theorem wf_nil : Memory.wf [] := ⟨List.Pairwise.nil, fun _ h => nomatch h⟩

theorem wf_erase {m : Memory} (h : m.wf) (a : Nat) : (m.erase a).wf :=
  ⟨h.1.filter _, fun c hc => h.2 c (mem_erase.mp hc).1⟩

theorem wf_below {m : Memory} (h : m.wf) (len : Nat) : (m.below len).wf :=
  ⟨h.1.filter _, fun c hc => h.2 c (mem_below.mp hc).1⟩

theorem pairwise_insert {m : Memory} (a : Nat) (v : Word)
    (h : m.Pairwise (fun c d => c.1 < d.1)) (hn : ∀ c ∈ m, c.1 ≠ a) :
    (Memory.insert a v m).Pairwise (fun c d => c.1 < d.1) := by
  induction m with
  | nil => simp [Memory.insert]
  | cons c m ih =>
    rw [List.pairwise_cons] at h
    unfold Memory.insert
    split
    · rename_i ha
      refine List.pairwise_cons.mpr ⟨fun d hd => ?_, List.pairwise_cons.mpr h⟩
      rcases List.mem_cons.mp hd with rfl | hd
      · exact ha
      · exact Nat.lt_trans ha (h.1 d hd)
    · rename_i ha
      have hne := hn c (by simp)
      refine List.pairwise_cons.mpr ⟨fun d hd => ?_, ih h.2 (fun d hd => hn d (by simp [hd]))⟩
      rcases mem_insert.mp hd with rfl | hd
      · simp only at ha ⊢; omega
      · exact h.1 d hd

/-- One cell's new word keeps the canonical form. -/
theorem wf_update {m : Memory} (h : m.wf) (a : Nat) (v : Word) : (m.update a v).wf := by
  unfold Memory.update
  split
  · exact wf_erase h a
  · rename_i hv
    refine ⟨pairwise_insert a v (wf_erase h a).1 (fun c hc => (mem_erase.mp hc).2), fun c hc => ?_⟩
    rcases mem_insert.mp hc with rfl | hc
    · exact hv
    · exact (wf_erase h a).2 c hc

theorem mem_ofImage {a : Nat} {image : List Word} {c : Nat × Word} (h : c ∈ Memory.ofImage a image) :
    a ≤ c.1 ∧ c.1 < a + image.length ∧ c.2 ≠ Memory.unlisted := by
  induction image generalizing a with
  | nil => simp [Memory.ofImage] at h
  | cons v image ih =>
    unfold Memory.ofImage at h
    split at h
    · have := ih h
      simp only [List.length_cons]
      exact ⟨by omega, by omega, this.2.2⟩
    · rename_i hv
      rcases List.mem_cons.mp h with rfl | h
      · simpa using hv
      · have := ih h
        simp only [List.length_cons]
        exact ⟨by omega, by omega, this.2.2⟩

/-- An image's cells are in canonical form. -/
theorem wf_ofImage (a : Nat) (image : List Word) : (Memory.ofImage a image).wf := by
  refine ⟨?_, fun c hc => (mem_ofImage hc).2.2⟩
  induction image generalizing a with
  | nil => simp [Memory.ofImage]
  | cons v image ih =>
    unfold Memory.ofImage
    split
    · exact ih (a + 1)
    · refine List.pairwise_cons.mpr ⟨fun c hc => ?_, ih (a + 1)⟩
      have := (mem_ofImage hc).1
      simp only
      omega

/-- An image's word `k` is what the cells read at `a + k`. -/
theorem lookup_ofImage (a k : Nat) (image : List Word) :
    (Memory.ofImage a image).lookup (a + k) = image.getD k 0 := by
  induction image generalizing a k with
  | nil => simp [Memory.ofImage, Memory.lookup]
  | cons v image ih =>
    unfold Memory.ofImage
    cases k with
    | zero =>
      split
      · rename_i hv
        have h0 : ∀ (m : Memory), (∀ c ∈ m, a < c.1) → m.lookup a = Memory.unlisted := by
          intro m hm
          induction m with
          | nil => rfl
          | cons c m ihm =>
            have hc := hm c (by simp)
            have hne : c.1 ≠ a := by omega
            simpa [Memory.lookup, hne] using ihm (fun d hd => hm d (by simp [hd]))
        simpa [hv] using h0 _ (fun c hc => (mem_ofImage hc).1)
      · simp [Memory.lookup]
    | succ k =>
      have hk : a + (k + 1) = a + 1 + k := by omega
      split
      · rw [hk, ih]; simp
      · have hne : a ≠ a + 1 + k := by omega
        rw [hk]
        simp [Memory.lookup, hne, ih]

/-! ### The read and write primitives -/

theorem memRead_eq (s : State) (a : Nat) :
    memRead s a = if a < s.memLen then s.mem.lookup a else 0 := rfl

theorem memRead_of_le {s : State} {a : Nat} (h : s.memLen ≤ a) : memRead s a = 0 := by
  simp [memRead, Nat.not_lt.mpr h]

/-- A nonzero word stands below the length. -/
theorem lt_memLen_of_memRead_ne {s : State} {a : Nat} (h : memRead s a ≠ 0) : a < s.memLen := by
  by_contra hn
  exact h (memRead_of_le (Nat.le_of_not_lt hn))

/-- A stored word reads back. -/
@[simp] theorem memRead_storeWord_same (a : Nat) (v : Word) (s : State) :
    memRead (storeWord a v s) a = v := by
  rw [memRead_eq, storeWord_memLen, if_pos (by omega)]
  unfold storeWord
  split <;> simp

/-- A store leaves every other address as it reads. -/
theorem memRead_storeWord_other (a b : Nat) (v : Word) (s : State) (h : b ≠ a) :
    memRead (storeWord a v s) b = memRead s b := by
  rw [memRead_eq, memRead_eq, storeWord_memLen]
  by_cases hl : s.memLen ≤ a
  · simp only [storeWord, hl, if_true, lookup_update_other _ a b v h]
    by_cases hb : b < s.memLen
    · simp [lookup_below_lt _ _ _ hb, hb]
    · simp [lookup_below_ge _ _ _ (Nat.le_of_not_lt hb), hb]
  · simp only [storeWord, hl, if_false, lookup_update_other _ a b v h]
    have : (b < max s.memLen (a + 1)) = (b < s.memLen) := propext ⟨fun _ => by omega, fun _ => by omega⟩
    simp [this]

/-- A read depends on the cells and the length only. -/
theorem memRead_congr {s t : State} (hm : t.mem = s.mem) (hl : t.memLen = s.memLen) (a : Nat) :
    memRead t a = memRead s a := by
  simp [memRead, hm, hl]

/-- A store keeps the canonical form. -/
theorem wf_storeWord {s : State} (h : s.mem.wf) (a : Nat) (v : Word) : (storeWord a v s).mem.wf := by
  unfold storeWord
  split
  · exact wf_update (wf_below h _) a v
  · exact wf_update h a v

/-- A store keeps every cell below the length. -/
theorem cells_storeWord {s : State} (h : ∀ c ∈ s.mem, c.1 < s.memLen) (a : Nat) (v : Word) :
    ∀ c ∈ (storeWord a v s).mem, c.1 < (storeWord a v s).memLen := by
  intro c hc
  rw [storeWord_memLen]
  have old : c = (a, v) ∨ c ∈ s.mem := by
    unfold storeWord at hc
    split at hc
    · exact (mem_update hc).imp id (fun h => (mem_below.mp h).1)
    · exact mem_update hc
  rcases old with rfl | hc
  · simp only; omega
  · have := h c hc; omega

/-- What `MemWrite` can do: store below the capacity, or raise at or beyond it. -/
theorem memWrite_cases (p : Fin 4) (a : Nat) (v : Word) (s : State) :
    (a < s.cfg.memCapacity ∧ memWrite p a v s = .ok (storeWord a v s)) ∨
    (s.cfg.memCapacity ≤ a ∧ memWrite p a v s = .error ⟨.capacityExceeded, p⟩) := by
  unfold memWrite checkCapacity
  by_cases h : s.cfg.memCapacity ≤ a
  · exact .inr ⟨h, by simp [h]; rfl⟩
  · exact .inl ⟨Nat.lt_of_not_le h, by simp [h]; rfl⟩

/-- The reset memory is in canonical form. -/
theorem wf_reset : State.reset.mem.wf := wf_nil

/-- The words placed for a fetch keep the canonical form. -/
theorem wf_placeWords (a : Nat) (ws : List Word) {s : State} (h : s.mem.wf) :
    (placeWords a ws s).mem.wf := by
  induction ws generalizing a s with
  | nil => exact h
  | cons w ws ih => exact ih (a + 1) (wf_storeWord h a w)

end Sys2Proof.Machine
end

