-- ==== Sys2Proof/Laws/Ops.lean ====
section
/-!
SUPPORT. One specification lemma per shared operation: the range rule, the operand forms, the
capacity check and the end of an instruction.
-/

namespace Sys2Proof.Machine

/-! ### The range rule -/

/-- The signed value of a word is in range. -/
theorem inI64_toInt (w : Word) : inI64 w.toInt := by
  have h1 := BitVec.le_toInt (x := w)
  have h2 := BitVec.toInt_lt (x := w)
  constructor <;> omega

/-- In range, `wrap64` changes nothing. -/
theorem wrap64_toInt {v : Int} (h : inI64 v) : (wrap64 v).toInt = v := by
  unfold wrap64
  rw [BitVec.toInt_ofInt, Int.bmod_eq_of_le] <;> (obtain ⟨h1, h2⟩ := h; norm_num at *; omega)

/-- `wrap64(v)` is congruent to `v` modulo 2^64. -/
theorem wrap64_congr (v : Int) : (2 ^ 64 : Int) ∣ (wrap64 v).toInt - v := by
  unfold wrap64
  rw [BitVec.toInt_ofInt]
  exact Int.ModEq.dvd (show v ≡ v.bmod (2 ^ 64) [ZMOD 2 ^ 64] from Int.bmod_emod.symm)

/-- What `arith` can do. -/
theorem arith_cases (c : Config) (v : Int) :
    (inI64 v ∧ arith c v = .ok (wrap64 v)) ∨
    (¬ inI64 v ∧ c.overflowMode = .wrap ∧ arith c v = .ok (wrap64 v)) ∨
    (¬ inI64 v ∧ c.overflowMode = .fault ∧ arith c v = .error ⟨.arithOverflow, 0⟩) := by
  unfold arith
  by_cases h : inI64 v
  · exact .inl ⟨h, if_pos h⟩
  · rw [if_neg h]
    cases hm : c.overflowMode
    · exact .inr (.inr ⟨h, rfl, rfl⟩)
    · exact .inr (.inl ⟨h, rfl, rfl⟩)

/-! ### Operand forms -/

theorem checkAddress_nonneg {i : Fin 4} {ea : Int} (h : 0 ≤ ea) : checkAddress i ea = .ok ea.toNat :=
  if_neg (not_lt.mpr h)

theorem checkAddress_neg {i : Fin 4} {ea : Int} (h : ea < 0) :
    checkAddress i ea = .error ⟨.negativeAddress, i⟩ :=
  if_pos h

/-- What resolving a value can do: the literal, the word at a nonnegative effective address, or a
raise at a negative one. -/
theorem resolveValue_cases (i : Fin 4) (p : ValueParam) (s : State) :
    (p.mode = .immediate ∧ resolveValue i p s = .ok p.raw) ∨
    (∃ ea : Int, (p.mode = .position ∧ ea = p.raw.toInt ∨ p.mode = .relative ∧ ea = s.rb.toInt + p.raw.toInt) ∧
      (0 ≤ ea ∧ resolveValue i p s = .ok (memRead s ea.toNat) ∨
        ea < 0 ∧ resolveValue i p s = .error ⟨.negativeAddress, i⟩)) := by
  obtain ⟨mode, raw⟩ := p
  cases mode
  · refine .inr ⟨raw.toInt, .inl ⟨rfl, rfl⟩, ?_⟩
    rcases lt_or_ge raw.toInt 0 with h | h
    · exact .inr ⟨h, by simp [resolveValue, positionAddress, checkAddress_neg h]; rfl⟩
    · exact .inl ⟨h, by simp [resolveValue, positionAddress, checkAddress_nonneg h]; rfl⟩
  · exact .inl ⟨rfl, rfl⟩
  · refine .inr ⟨s.rb.toInt + raw.toInt, .inr ⟨rfl, rfl⟩, ?_⟩
    rcases lt_or_ge (s.rb.toInt + raw.toInt) 0 with h | h
    · exact .inr ⟨h, by simp [resolveValue, relativeAddress, checkAddress_neg h]; rfl⟩
    · exact .inl ⟨h, by simp [resolveValue, relativeAddress, checkAddress_nonneg h]; rfl⟩

/-- What resolving a write parameter can do: a nonnegative effective address, or a raise. -/
theorem resolveAddr_cases (i : Fin 4) (p : WriteParam) (s : State) :
    ∃ ea : Int, (p.mode = .position ∧ ea = p.raw.toInt ∨ p.mode = .relative ∧ ea = s.rb.toInt + p.raw.toInt) ∧
      (0 ≤ ea ∧ resolveAddr i p s = .ok ea.toNat ∨
        ea < 0 ∧ resolveAddr i p s = .error ⟨.negativeAddress, i⟩) := by
  obtain ⟨mode, raw⟩ := p
  cases mode
  · refine ⟨raw.toInt, .inl ⟨rfl, rfl⟩, ?_⟩
    rcases lt_or_ge raw.toInt 0 with h | h
    · exact .inr ⟨h, checkAddress_neg h⟩
    · exact .inl ⟨h, checkAddress_nonneg h⟩
  · refine ⟨s.rb.toInt + raw.toInt, .inr ⟨rfl, rfl⟩, ?_⟩
    rcases lt_or_ge (s.rb.toInt + raw.toInt) 0 with h | h
    · exact .inr ⟨h, checkAddress_neg h⟩
    · exact .inl ⟨h, checkAddress_nonneg h⟩

/-- The three parameters of format F3 resolve exactly when each does. -/
theorem resolveThree_ok_iff {a b : ValueParam} {dst : WriteParam} {s : State} {x y : Word} {d : Nat} :
    resolveThree a b dst s = .ok (x, y, d) ↔
      resolveValue 1 a s = .ok x ∧ resolveValue 2 b s = .ok y ∧ resolveAddr 3 dst s = .ok d := by
  unfold resolveThree
  cases resolveValue 1 a s with
  | error e => exact ⟨fun h => (nomatch h), fun h => (nomatch h.1)⟩
  | ok u =>
    cases resolveValue 2 b s with
    | error e => exact ⟨fun h => (nomatch h), fun h => (nomatch h.2.1)⟩
    | ok v =>
      cases resolveAddr 3 dst s with
      | error e => exact ⟨fun h => (nomatch h), fun h => (nomatch h.2.2)⟩
      | ok w => exact ⟨fun h => by cases h; exact ⟨rfl, rfl, rfl⟩, fun ⟨h1, h2, h3⟩ => by cases h1; cases h2; cases h3; rfl⟩

/-- The parameters of a jump with a legal target resolve exactly when each does. -/
theorem resolveJump_ok_iff {cond target : ValueParam} {s : State} {c : Word} {g : Int} :
    resolveJump cond target s = .ok (c, g) ↔
      target.legalTarget s.cfg = true ∧ resolveValue 1 cond s = .ok c ∧ resolveTarget target s = .ok g := by
  unfold resolveJump
  cases target.legalTarget s.cfg with
  | false => exact ⟨fun h => (nomatch h), fun h => (nomatch h.1)⟩
  | true =>
    cases resolveValue 1 cond s with
    | error e => exact ⟨fun h => (nomatch h), fun h => (nomatch h.2.1)⟩
    | ok u =>
      cases resolveTarget target s with
      | error e => exact ⟨fun h => (nomatch h), fun h => (nomatch h.2.2)⟩
      | ok v => exact ⟨fun h => by cases h; exact ⟨rfl, rfl, rfl⟩, fun ⟨_, h1, h2⟩ => by cases h1; cases h2; rfl⟩

/-! ### Effects and the end of an instruction -/

/-- What the capacity check can do. -/
theorem check_cases (s : State) (e : Effects) :
    ((∀ w, e.write = some w → w.addr < s.cfg.memCapacity) ∧ e.check s = .ok e) ∨
    (∃ w, e.write = some w ∧ s.cfg.memCapacity ≤ w.addr ∧ e.check s = .error ⟨.capacityExceeded, w.param⟩) := by
  unfold Effects.check checkCapacity
  cases hw : e.write with
  | none => exact .inl ⟨fun w h => by simp at h, rfl⟩
  | some w =>
    by_cases h : s.cfg.memCapacity ≤ w.addr
    · exact .inr ⟨w, rfl, h, by simp [h]; rfl⟩
    · exact .inl ⟨fun w' h' => by cases h'; omega, by simp [h]; rfl⟩

/-- What the end of an instruction can do: commit effects whose write is below the capacity, or take
the fault of its raise or of the capacity check. -/
theorem complete_cases (r : Except Raise Effects) (s : State) :
    (∃ e, r = .ok e ∧ (∀ w, e.write = some w → w.addr < s.cfg.memCapacity) ∧ complete r s = .next (commit s e)) ∨
    (∃ x, complete r s = .next (takeFault x s) ∧
      (r = .error x ∨ ∃ e w, r = .ok e ∧ e.write = some w ∧ s.cfg.memCapacity ≤ w.addr ∧
        x = ⟨.capacityExceeded, w.param⟩)) := by
  cases r with
  | error x => exact .inr ⟨x, rfl, .inl rfl⟩
  | ok e =>
    rcases check_cases s e with ⟨hw, hc⟩ | ⟨w, hw, hle, hc⟩
    · exact .inl ⟨e, rfl, hw, by simp [complete, Except.bind, hc]⟩
    · exact .inr ⟨_, by simp only [complete, Except.bind, hc], .inr ⟨e, w, rfl, hw, hle, rfl⟩⟩

/-- A commit whose write is at `w` stores it and nothing else. -/
theorem memRead_commit (s : State) (e : Effects) (a : Nat) :
    memRead (commit s e) a = memRead (storedBy s e) a :=
  memRead_congr (commit_mem s e) (commit_memLen s e) a

end Sys2Proof.Machine
end

