-- ==== Sys2Proof/Laws/PerInstr.lean ====
section
/-!
SUPPORT. Statements about every instruction as syntax, one lemma per constructor.

`EncodeLength`: an instruction's encoding has as many words as its width, one to four
(30_encoding.md R72, R84).
-/

namespace Sys2Proof.Laws.EncodeLength

/-- The encoding of `i` is `i.width` words, 1 to 4 of them, and starts with `i.opcode` in its two
lowest digits. -/
def Statement (i : Instr) : Prop :=
  (encode i).length = i.width ∧ 1 ≤ i.width ∧ i.width ≤ 4 ∧ ((encode i).headD 0).toNat % 100 = i.opcode

theorem add (a b : ValueParam) (dst : WriteParam) : Statement (.add a b dst) :=
  ⟨rfl, by simp [Instr.width], by simp [Instr.width],
    encodeWord_mod (by decide) a.mode.toDigit_le b.mode.toDigit_le dst.mode.toDigit_le⟩

theorem mul (a b : ValueParam) (dst : WriteParam) : Statement (.mul a b dst) :=
  ⟨rfl, by simp [Instr.width], by simp [Instr.width],
    encodeWord_mod (by decide) a.mode.toDigit_le b.mode.toDigit_le dst.mode.toDigit_le⟩

theorem input (dst : WriteParam) : Statement (.input dst) :=
  ⟨rfl, by simp [Instr.width], by simp [Instr.width],
    encodeWord_mod (by decide) dst.mode.toDigit_le (Nat.zero_le 2) (Nat.zero_le 2)⟩

theorem output (a : ValueParam) : Statement (.output a) :=
  ⟨rfl, by simp [Instr.width], by simp [Instr.width],
    encodeWord_mod (by decide) a.mode.toDigit_le (Nat.zero_le 2) (Nat.zero_le 2)⟩

theorem jumpIfTrue (cond target : ValueParam) : Statement (.jumpIfTrue cond target) :=
  ⟨rfl, by simp [Instr.width], by simp [Instr.width],
    encodeWord_mod (by decide) cond.mode.toDigit_le target.mode.toDigit_le (Nat.zero_le 2)⟩

theorem jumpIfFalse (cond target : ValueParam) : Statement (.jumpIfFalse cond target) :=
  ⟨rfl, by simp [Instr.width], by simp [Instr.width],
    encodeWord_mod (by decide) cond.mode.toDigit_le target.mode.toDigit_le (Nat.zero_le 2)⟩

theorem lessThan (a b : ValueParam) (dst : WriteParam) : Statement (.lessThan a b dst) :=
  ⟨rfl, by simp [Instr.width], by simp [Instr.width],
    encodeWord_mod (by decide) a.mode.toDigit_le b.mode.toDigit_le dst.mode.toDigit_le⟩

theorem equals (a b : ValueParam) (dst : WriteParam) : Statement (.equals a b dst) :=
  ⟨rfl, by simp [Instr.width], by simp [Instr.width],
    encodeWord_mod (by decide) a.mode.toDigit_le b.mode.toDigit_le dst.mode.toDigit_le⟩

theorem adjustBase (a : ValueParam) : Statement (.adjustBase a) :=
  ⟨rfl, by simp [Instr.width], by simp [Instr.width],
    encodeWord_mod (by decide) a.mode.toDigit_le (Nat.zero_le 2) (Nat.zero_le 2)⟩

theorem halt : Statement .halt :=
  ⟨rfl, by simp [Instr.width], by simp [Instr.width],
    encodeWord_mod (by decide) (Nat.zero_le 2) (Nat.zero_le 2) (Nat.zero_le 2)⟩

end Sys2Proof.Laws.EncodeLength
end

