-- ==== Sys2Proof/Laws/Step.lean ====
section
/-!
SUPPORT. Everything an instruction and a step can do, said once.
-/

namespace Sys2Proof.Machine

open Host (Outcome)

/-- The effects an instruction would commit, or its raise at resolve or execute. -/
def effectsOf (i : Instr) (s : State) : Except Raise Effects :=
  (resolveInstr s i).bind (Resolved.effects s)

/-- Every meaning is its effects, completed. -/
theorem exec_eq_complete (i : Instr) (s : State) : exec i s = complete (effectsOf i s) s := by
  cases i with
  | add a b dst | mul a b dst | lessThan a b dst | equals a b dst =>
    simp only [exec, execAdd, execMul, execLessThan, execEquals, effectsOf, resolveInstr]
    cases resolveThree a b dst s <;> rfl
  | input dst =>
    simp only [exec, execInput, effectsOf, resolveInstr]
    cases resolveAddr 1 dst s <;> rfl
  | output a | adjustBase a =>
    simp only [exec, execOutput, execAdjustBase, effectsOf, resolveInstr]
    cases resolveValue 1 a s <;> rfl
  | jumpIfTrue cond target | jumpIfFalse cond target =>
    simp only [exec, execJumpIfTrue, execJumpIfFalse, effectsOf, resolveInstr]
    cases resolveJump cond target s <;> rfl
  | halt => rfl

/-- What `arith`, mapped to effects, can answer. -/
theorem arith_map_ok {c : Config} {v : Int} {f : Word → Effects} {e : Effects}
    (h : (arith c v).map f = .ok e) : e = f (wrap64 v) := by
  rcases arith_cases c v with ⟨_, ha⟩ | ⟨_, _, ha⟩ | ⟨_, _, ha⟩ <;> rw [ha] at h <;> cases h <;> rfl

/-- The effects each instruction can have. -/
theorem effectsOf_ok {i : Instr} {s : State} {e : Effects} (h : effectsOf i s = .ok e) :
    (i.opcode ∈ [1, 2, 7, 8] ∧ ∃ d v, e = Effects.storing s 4 3 d v) ∨
    (∃ dst d v q, i = .input dst ∧ s.inq = v :: q ∧
      e = { Effects.storing s 2 1 d v with pop := true }) ∨
    (∃ dst d, i = .input dst ∧ s.inq = [] ∧ e = Effects.storing s 2 1 d s.latch) ∨
    (∃ a x, i = .output a ∧ e = { Effects.quiet s (s.ip + 2) .output with out := x }) ∨
    (∃ cond target, (i = .jumpIfTrue cond target ∨ i = .jumpIfFalse cond target) ∧
      (e = Effects.quiet s (s.ip + 3) .none ∨
        ∃ c g, resolveJump cond target s = .ok (c, g) ∧ 0 ≤ g ∧ e = Effects.quiet s g.toNat .none)) ∨
    (∃ a r, i = .adjustBase a ∧ e = { Effects.quiet s (s.ip + 2) .none with rb := r }) ∨
    (i = .halt ∧ e = { Effects.quiet s s.ip .halt with halted := true }) := by
  cases i with
  | add a b dst | mul a b dst | lessThan a b dst | equals a b dst =>
    left
    simp only [effectsOf, resolveInstr] at h
    cases hr : resolveThree a b dst s with
    | error y => rw [hr] at h; cases h
    | ok y =>
      rw [hr] at h
      exact ⟨by simp [Instr.opcode], _, _, by first | exact arith_map_ok h | (cases h; rfl)⟩
  | input dst =>
    simp only [effectsOf, resolveInstr] at h
    cases hr : resolveAddr 1 dst s with
    | error y => rw [hr] at h; cases h
    | ok y =>
      rw [hr] at h
      change inputEffects y s = .ok e at h
      unfold inputEffects at h
      split at h
      · rename_i v q hq
        cases h
        exact .inr (.inl ⟨dst, _, v, q, rfl, hq, rfl⟩)
      · rename_i hq
        cases h
        exact .inr (.inr (.inl ⟨dst, _, rfl, hq, rfl⟩))
  | output a =>
    simp only [effectsOf, resolveInstr] at h
    cases hr : resolveValue 1 a s with
    | error y => rw [hr] at h; cases h
    | ok y => rw [hr] at h; cases h; exact .inr (.inr (.inr (.inl ⟨a, _, rfl, rfl⟩)))
  | jumpIfTrue cond target | jumpIfFalse cond target =>
    refine .inr (.inr (.inr (.inr (.inl ⟨cond, target, by simp, ?_⟩))))
    simp only [effectsOf, resolveInstr] at h
    cases hr : resolveJump cond target s with
    | error y => rw [hr] at h; cases h
    | ok y =>
      rw [hr] at h
      obtain ⟨c, g⟩ := y
      first
      | change jumpEffects (decide (c ≠ 0)) g s = _ at h
      | change jumpEffects (decide (c = 0)) g s = _ at h
      unfold jumpEffects at h
      split at h
      · split at h
        · cases h
        · cases h
          exact .inr ⟨c, g, rfl, by omega, rfl⟩
      · cases h
        exact .inl rfl
  | adjustBase a =>
    simp only [effectsOf, resolveInstr] at h
    cases hr : resolveValue 1 a s with
    | error y => rw [hr] at h; cases h
    | ok y =>
      rw [hr] at h
      exact .inr (.inr (.inr (.inr (.inr (.inl ⟨a, _, rfl, arith_map_ok h⟩)))))
  | halt =>
    cases h
    exact .inr (.inr (.inr (.inr (.inr (.inr ⟨rfl, rfl⟩)))))

/-- What an instruction can do: commit its effects, with any write below the capacity, or take a
fault. -/
theorem exec_cases (i : Instr) (s : State) :
    (∃ e, effectsOf i s = .ok e ∧ (∀ w, e.write = some w → w.addr < s.cfg.memCapacity) ∧
      exec i s = .next (commit s e)) ∨
    (∃ x, exec i s = .next (takeFault x s) ∧
      (effectsOf i s = .error x ∨ ∃ e w, effectsOf i s = .ok e ∧ e.write = some w ∧
        s.cfg.memCapacity ≤ w.addr ∧ x = ⟨.capacityExceeded, w.param⟩)) := by
  rw [exec_eq_complete]
  exact complete_cases _ s

/-- What a step can do. -/
theorem step_cases (s : State) :
    ((s.fault.isSome = true ∨ s.halted = true) ∧ step s = .next s) ∨
    (s.fault = none ∧ s.halted = false ∧
      ((∃ x, fetchDecode s = .error x ∧ step s = .next (takeFault x s)) ∨
        (∃ i, fetchDecode s = .ok i ∧ step s = exec i s))) := by
  unfold step
  cases hf : s.fault with
  | some r => exact .inl ⟨.inl rfl, rfl⟩
  | none =>
    cases hh : s.halted with
    | true => exact .inl ⟨.inr rfl, rfl⟩
    | false =>
      refine .inr ⟨rfl, rfl, ?_⟩
      cases hd : fetchDecode s with
      | error x => exact .inl ⟨x, rfl, rfl⟩
      | ok i => exact .inr ⟨i, rfl, rfl⟩

/-- An instruction that decodes stands below the memory length: the word 0 beyond it is no opcode. -/
theorem ip_lt_memLen {s : State} {i : Instr} (h : fetchDecode s = .ok i) : s.ip < s.memLen := by
  refine lt_memLen_of_memRead_ne (fun h0 => ?_)
  unfold fetchDecode decode fetchWords at h
  rw [Nat.add_zero, h0] at h
  cases h

/-- A step always answers a next state. -/
theorem step_next (s : State) : ∃ t, step s = .next t := by
  rcases step_cases s with ⟨_, h⟩ | ⟨_, _, ⟨x, _, h⟩ | ⟨i, _, h⟩⟩
  · exact ⟨_, h⟩
  · exact ⟨_, h⟩
  · rcases exec_cases i s with ⟨e, _, _, he⟩ | ⟨x, hx, _⟩
    · exact ⟨_, h.trans he⟩
    · exact ⟨_, h.trans hx⟩

/-- One more instruction of a transaction. -/
theorem stepTransaction_succ (budget : Nat) {s t : State} (h : step s = .next t) :
    stepTransaction (budget + 1) s =
      if t.busy then stepTransaction budget t else .next (t, stepResponse t) := by
  simp [stepTransaction, h]

end Sys2Proof.Machine
end

