-- ==== Sys2Proof/Tests/Slice0.lean ====
section
/-!
SUPPORT. Tests on the spec's own vectors (95_test_vectors.md), decode tests on words written out from
30_encoding.md R73, the checks of WellFormed, and a witness for the hypotheses of every statement.
-/

namespace Sys2Proof.Tests

open Host (Outcome)
open Sys2Proof.Machine

/-! ### Helpers -/

/-- The default configuration with the capacity 2^20 that 95_test_vectors.md uses where it matters. -/
def config20 : Config := { Config.default with memCapacity := 2 ^ 20 }

/-- A configuration of a given capacity. -/
def capped (n : Nat) : Config := { Config.default with memCapacity := n }

/-- The configuration with `OVERFLOW_MODE = WRAP`. -/
def wrapping : Config := { config20 with overflowMode := .wrap }

/-- The configuration with `JUMP_TARGET = ADDRESS`. -/
def addressed : Config := { config20 with jumpTarget := .address }

/-- The configuration with `EXCESS_DIGIT_MODE = IGNORE`. -/
def ignoring : Config := { config20 with excessDigitMode := .ignore }

/-- A machine just loaded. -/
def machine (image : List Word) : State := loaded config20 image

/-- What an outcome holds, if it goes on. -/
def got? {α : Type} : Outcome α Fault Refusal → Option α
  | .next s => some s
  | .fault _ => none
  | .refused _ => none

/-- An outcome that holds a value is that next state. -/
theorem next_of_got? {α : Type} {o : Outcome α Fault Refusal} {x : α} (h : got? o = some x) : o = .next x := by
  cases o <;> simp_all [got?]

/-- A field of the state after one step. -/
def after {α : Type} (f : State → α) (s : State) : Option α := (got? (step s)).map f

/-- The fault record's code, parameter and address after one step. -/
def faultAfter (s : State) : Option (Option (FaultCode × Fin 4 × Nat)) :=
  after (fun t => t.fault.map (fun r => (r.code, r.param, r.fip))) s

/-! ### WellFormed: one ill-formed term for each check -/

theorem test_wellFormed_refuses_immediate_target_of_jumpIfTrue :
    (Instr.jumpIfTrue ⟨.immediate, 1⟩ ⟨.immediate, 4⟩).wellFormed addressed = false := by decide

theorem test_wellFormed_refuses_immediate_target_of_jumpIfFalse :
    (Instr.jumpIfFalse ⟨.immediate, 1⟩ ⟨.immediate, 4⟩).wellFormed addressed = false := by decide

theorem test_wellFormed_takes_other_targets :
    (Instr.jumpIfTrue ⟨.immediate, 1⟩ ⟨.position, 4⟩).wellFormed addressed = true ∧
    (Instr.jumpIfFalse ⟨.immediate, 1⟩ ⟨.relative, 4⟩).wellFormed addressed = true ∧
    (Instr.jumpIfTrue ⟨.immediate, 1⟩ ⟨.immediate, 4⟩).wellFormed config20 = true := by decide

theorem test_config_wf_bounds :
    ¬ (capped 0).wf ∧ (capped 1).wf ∧ (capped (2 ^ 63)).wf ∧ ¬ (capped (2 ^ 63 + 1)).wf := by decide

theorem test_memory_wf_refuses :
    ¬ Memory.wf [(1, 5), (0, 5)] ∧ ¬ Memory.wf [(0, 5), (0, 6)] ∧ ¬ Memory.wf [(0, 0)] ∧
      Memory.wf [(0, 5), (7, 6)] := by decide

/-! ### Decoding: words written out digit by digit from 30_encoding.md R73 -/

theorem test_decode_add :
    decode config20 (streamOf [1201, 5, -1, 20]) =
      .ok (.add ⟨.relative, 5⟩ ⟨.immediate, -1⟩ ⟨.position, 20⟩) := by decide

theorem test_decode_mul :
    decode config20 (streamOf [20102, 3, 4, 13]) =
      .ok (.mul ⟨.immediate, 3⟩ ⟨.position, 4⟩ ⟨.relative, 13⟩) := by decide

theorem test_decode_input :
    decode config20 (streamOf [203, 7]) = .ok (.input ⟨.relative, 7⟩) := by decide

theorem test_decode_output :
    decode config20 (streamOf [104, -4]) = .ok (.output ⟨.immediate, -4⟩) := by decide

theorem test_decode_jumpIfTrue :
    decode config20 (streamOf [2105, 0, 4]) =
      .ok (.jumpIfTrue ⟨.immediate, 0⟩ ⟨.relative, 4⟩) := by decide

theorem test_decode_jumpIfFalse :
    decode config20 (streamOf [1006, 7, 9]) =
      .ok (.jumpIfFalse ⟨.position, 7⟩ ⟨.immediate, 9⟩) := by decide

theorem test_decode_lessThan :
    decode config20 (streamOf [21107, 1, 2, 3]) =
      .ok (.lessThan ⟨.immediate, 1⟩ ⟨.immediate, 2⟩ ⟨.relative, 3⟩) := by decide

theorem test_decode_equals :
    decode config20 (streamOf [208, 1, 2, 3]) =
      .ok (.equals ⟨.relative, 1⟩ ⟨.position, 2⟩ ⟨.position, 3⟩) := by decide

theorem test_decode_adjustBase :
    decode config20 (streamOf [109, -5]) = .ok (.adjustBase ⟨.immediate, -5⟩) := by decide

theorem test_decode_halt : decode config20 (streamOf [99]) = .ok .halt := by decide

/-- The decode vectors of 95_test_vectors.md section 3.6 that fault at the default configuration. -/
theorem test_decode_faults :
    decode config20 (streamOf [0]) = .error ⟨.badOpcode, 0⟩ ∧
    decode config20 (streamOf [100]) = .error ⟨.badOpcode, 0⟩ ∧
    decode config20 (streamOf [-99]) = .error ⟨.badOpcode, 0⟩ ∧
    decode config20 (streamOf [405]) = .error ⟨.badMode, 1⟩ ∧
    decode config20 (streamOf [5005]) = .error ⟨.badMode, 2⟩ ∧
    decode config20 (streamOf [30301]) = .error ⟨.badMode, 1⟩ ∧
    decode config20 (streamOf [103]) = .error ⟨.immediateWrite, 1⟩ ∧
    decode config20 (streamOf [11107]) = .error ⟨.immediateWrite, 3⟩ ∧
    decode config20 (streamOf [11199]) = .error ⟨.excessModeDigits, 0⟩ ∧
    decode config20 (streamOf [1000004]) = .error ⟨.excessModeDigits, 0⟩ := by decide

theorem test_decode_other_settings :
    decode ignoring (streamOf [100099]) = .ok .halt ∧
    decode ignoring (streamOf [1000004, 6]) = .ok (.output ⟨.position, 6⟩) ∧
    decode addressed (streamOf [1005]) = .error ⟨.immediateWrite, 2⟩ := by decide

/-- The table word has the instruction word in bits 63..0 and the raw
operands above it. -/
theorem test_decodeTableWord :
    decodeTableWord 64 203 = some (.input ⟨.relative, 0⟩) ∧
    decodeTableWord 128 (104 + 7 * 2 ^ 64) = some (.output ⟨.immediate, 7⟩) ∧
    decodeTableWord 256 (1101 + 2 * 2 ^ 64 + 3 * 2 ^ 128 + 5 * 2 ^ 192) =
      some (.add ⟨.immediate, 2⟩ ⟨.immediate, 3⟩ ⟨.position, 5⟩) ∧
    decodeTableWord 64 103 = none := by decide

theorem test_withFetchWord_runs_next :
    after (fun t => (t.halted, t.ip)) (State.reset.withFetchWord 64 99) = some (true, 0) ∧
    after (fun t => (t.out, t.ip)) (State.reset.withFetchWord 128 (104 + 7 * 2 ^ 64)) = some (7, 2) := by
  decide

/-! ### One step of each instruction (95_test_vectors.md section 3) -/

/-- V-add-1 and V-add-6. -/
theorem test_add :
    after (fun t => (memRead t 5, t.ip)) (machine [1101, 2, 3, 5, 99, 0]) = some (5, 4) ∧
    after (fun t => (memRead t 5, t.ip)) (machine [1, 5, 5, 5, 99, 21]) = some (42, 4) := by decide

/-- V-add-3, V-add-4 and V-add-4w. -/
theorem test_add_range :
    after (fun t => memRead t 5) (machine [1101, 9223372036854775807, 0, 5, 99, 0]) =
      some 9223372036854775807 ∧
    faultAfter (machine [1101, 9223372036854775807, 1, 5, 99, 0]) = some (some (.arithOverflow, 0, 0)) ∧
    after (fun t => memRead t 5) (loaded wrapping [1101, 9223372036854775807, 1, 5, 99, 0]) =
      some (-9223372036854775808) := by decide

/-- V-mul-2 and V-mul-5. -/
theorem test_mul :
    after (fun t => (memRead t 5, t.ip)) (machine [1102, -3, 4, 5, 99, 0]) = some (-12, 4) ∧
    after (fun t => memRead t 5) (machine [1102, -4611686018427387904, 2, 5, 99, 0]) =
      some (-9223372036854775808) := by decide

/-- V-mul-7 and V-mul-8. -/
theorem test_mul_range :
    faultAfter (machine [1102, -9223372036854775808, -1, 5, 99, 0]) = some (some (.arithOverflow, 0, 0)) ∧
    after (fun t => memRead t 5) (loaded wrapping [1102, -9223372036854775808, -1, 5, 99, 0]) =
      some (-9223372036854775808) ∧
    after (fun t => memRead t 5) (loaded wrapping [1102, 4294967296, 4294967296, 5, 99, 0]) = some 0 := by
  decide

/-- V-in-9's first step: the oldest entry, popped. -/
theorem test_input_pops_the_oldest :
    after (fun t => (memRead t 5, t.inq, t.ip)) { machine [3, 5, 99, 0, 0, 0] with inq := [1, 2, 3] } =
      some (1, [2, 3], 2) := by decide

/-- V-in-2: the latch is read and kept. -/
theorem test_input_reads_the_latch :
    after (fun t => (memRead t 5, t.latch)) { machine [3, 5, 4, 5, 99, 0] with latch := -9 } =
      some (-9, -9) := by decide

/-- V-out-1 and V-out-5. -/
theorem test_output :
    after (fun t => (t.out, t.ip, t.halted, t.busy)) (machine [4, 3, 99, 77]) =
      some (77, 2, false, false) ∧
    after (fun t => (t.out, t.memLen)) (machine [4, 1000, 99]) = some (0, 3) := by decide

/-- V-jt-1, V-jt-2, V-jt-3 and V-jt-4. -/
theorem test_jumpIfTrue :
    after (fun t => t.ip) (machine [1105, 1, 4, 99, 104, 1, 99]) = some 4 ∧
    after (fun t => t.ip) (machine [1105, 0, 4, 99, 104, 1, 99]) = some 3 ∧
    after (fun t => t.ip) (machine [1105, -1, 4, 99, 104, 1, 99]) = some 4 ∧
    after (fun t => t.ip) (machine [5, 7, 8, 99, 104, 1, 99, 1, 4]) = some 4 := by decide

/-- V-jt-6, V-jt-11 and V-jt-11v. -/
theorem test_jumpIfTrue_targets :
    faultAfter (machine [1105, 1, -1, 99]) = some (some (.negativeJumpTarget, 2, 0)) ∧
    after (fun t => t.ip) (loaded addressed [105, 1, 4, 99, 104, 1, 99]) = some 4 ∧
    after (fun t => t.ip) (machine [105, 1, 4, 99, 104, 1, 99]) = some 104 := by decide

/-- V-jf-3 and V-jf-4. -/
theorem test_jumpIfFalse :
    after (fun t => t.ip) (machine [1106, 0, 4, 99, 104, 1, 99]) = some 4 ∧
    after (fun t => t.ip) (machine [1106, -1, 4, 99, 104, 1, 99]) = some 3 := by decide

/-- V-jf-7's second step: a jump that is not taken resolves its target. -/
theorem test_jumpIfFalse_resolves_its_target :
    faultAfter { machine [109, -10, 2106, 1, 0, 99] with ip := 2, rb := -10 } =
      some (some (.negativeAddress, 2, 2)) := by decide

/-- V-lt-1, V-lt-2, V-lt-3 and V-lt-4. -/
theorem test_lessThan :
    after (fun t => memRead t 5) (machine [1107, -1, 0, 5, 99, 7]) = some 1 ∧
    after (fun t => memRead t 5) (machine [1107, 5, 5, 5, 99, 7]) = some 0 ∧
    after (fun t => memRead t 5)
      (machine [1107, -9223372036854775808, 9223372036854775807, 5, 99, 7]) = some 1 ∧
    after (fun t => memRead t 5) (machine [1107, 1, 0, 5, 99, 7]) = some 0 := by decide

/-- V-eq-1, V-eq-2 and V-eq-3. -/
theorem test_equals :
    after (fun t => memRead t 5) (machine [1108, 5, 5, 5, 99, 7]) = some 1 ∧
    after (fun t => memRead t 5) (machine [1108, 5, -5, 5, 99, 7]) = some 0 ∧
    after (fun t => memRead t 5) (machine [8, 5, 5, 5, 99, 0]) = some 1 := by decide

/-- V-arb-1's first step and V-arb-5's second. -/
theorem test_adjustBase :
    after (fun t => (t.rb, t.ip)) (machine [109, 2000, 109, 19, 204, -34, 99]) = some (2000, 2) ∧
    after (fun t => t.rb) { machine [109, 2, 209, 3, 99, 40] with ip := 2, rb := 2 } = some 42 := by decide

/-- V-arb-6 and V-arb-6w, second step. -/
theorem test_adjustBase_range :
    faultAfter { machine [109, 9223372036854775807, 109, 1, 99] with ip := 2, rb := 9223372036854775807 } =
      some (some (.arithOverflow, 0, 2)) ∧
    after (fun t => t.rb)
      { loaded wrapping [109, 9223372036854775807, 109, 1, 99] with ip := 2, rb := 9223372036854775807 } =
      some (-9223372036854775808) := by decide

/-- V-hlt-1 and V-hlt-3i. -/
theorem test_halt :
    after (fun t => (t.halted, t.ip, t.busy)) (machine [99]) = some (true, 0, false) ∧
    after (fun t => t.halted) (loaded ignoring [199]) = some true := by decide

/-- V-add-7 and V-add-8: growth, zero-fill and a relative destination. -/
theorem test_store_grows :
    after (fun t => (memRead t 20, memRead t 19, t.memLen)) (machine [1101, 5, 6, 20, 4, 20, 99]) =
      some (11, 0, 21) ∧
    after (fun t => (memRead t 10, t.memLen)) { machine [109, 10, 21101, 1, 2, 0, 99] with ip := 2, rb := 10 } =
      some (3, 11) := by decide

/-- V-add-9 and V-pri-2: the capacity is checked last. -/
theorem test_capacity_is_checked_last :
    faultAfter (machine [1101, 1, 1, 2000000, 99]) = some (some (.capacityExceeded, 3, 0)) ∧
    faultAfter (machine [1101, 9223372036854775807, 1, 2000000, 99]) =
      some (some (.arithOverflow, 0, 0)) := by decide

/-- V-pri-3 and V-pri-4: parameters resolve in index order. -/
theorem test_resolve_order :
    faultAfter (machine [1201, -5, 0, 0, 99]) = some (some (.negativeAddress, 1, 0)) ∧
    faultAfter (machine [22201, -1, -2, -3, 99]) = some (some (.negativeAddress, 1, 0)) := by decide

/-- V-in-7: no pop on a fault. -/
theorem test_fault_keeps_the_queue :
    after (fun t => (t.inq, t.fault)) { machine [103, 5, 99] with inq := [5] } =
      some ([5], some ⟨.immediateWrite, 1, 0, 103⟩) := by decide

/-! ### Host commands (95_test_vectors.md section 3.8) -/

/-- V-host-1's PEEKs. -/
theorem test_peek :
    (got? (command 1 (.peek 2) (machine [1, 2, 3]))).map Prod.snd = some (.data 3) ∧
    (got? (command 1 (.peek 3) (machine [1, 2, 3]))).map Prod.snd = some (.data 0) ∧
    (got? (command 1 (.peek (-1)) (machine [1, 2, 3]))).map Prod.snd = some (.data 0) := by decide

/-- V-host-2 and V-host-3. -/
theorem test_poke :
    (got? (command 1 (.poke 10 5) (machine [99]))).map
      (fun p => (p.2, memRead p.1 10, memRead p.1 5, p.1.memLen)) = some (.ok, 5, 0, 11) ∧
    (got? (command 1 (.poke (2 ^ 20) 1) (machine [99]))).map (fun p => (p.2, p.1.memLen, p.1.fault)) =
      some (.refused, 1, none) := by decide

/-- V-host-4. -/
theorem test_feed :
    (got? (command 1 (.feed 2) { loaded { config20 with inqDepth := some 1 } [99] with inq := [1] })).map
      (fun p => (p.2, p.1.inq)) = some (.refused, [1]) := by decide

/-- V-host-5's first STEP, V-host-6 and V-hlt-2e. -/
theorem test_step_load_and_post_halt :
    (got? (command 1 .step (machine [0]))).map (fun p => (p.2, p.1.fault)) =
      some (.fault, some ⟨.badOpcode, 0, 0, 0⟩) ∧
    (got? (command 1 (.load [1, 2, 3]) (loaded (capped 2) []))).map Prod.snd = some .refused ∧
    (got? (command 1 .step { loaded { config20 with postHaltStep := .error } [99] with halted := true })).map
      Prod.snd = some .postHaltError := by decide

/-- V-host-11. -/
theorem test_drain_aborts :
    (got? (drainAllOutputs 1 2 (machine [104, 5, 0]))).map Prod.snd =
      some (.aborted (some ⟨.badOpcode, 0, 2, 0⟩) [5]) := by decide

/-! ### Witnesses: states and operands that meet each statement's hypotheses, clause by clause -/

/-- A machine of capacity 8 whose memory is `[1, 2, 3]` and whose relative base is `rb`. -/
def small (rb : Word) : State := { loaded (capped 8) [1, 2, 3] with rb := rb }

/-- `small` with `OVERFLOW_MODE = WRAP`. -/
def smallWrap (rb : Word) : State := { loaded { capped 8 with overflowMode := .wrap } [1, 2, 3] with rb := rb }

/-- `small` with `JUMP_TARGET = ADDRESS`. -/
def smallAddress (rb : Word) : State := { loaded { capped 8 with jumpTarget := .address } [1, 2, 3] with rb := rb }

/-- The literal `v` as a value parameter. -/
def lit (v : Word) : ValueParam := ⟨.immediate, v⟩

/-- The address `a` as a write parameter. -/
def at_ (a : Word) : WriteParam := ⟨.position, a⟩

theorem witness_ResetIsTheEmptyLoadState :
    State.reset.control ≠ .busy ∧ State.reset.cfg = Config.default := by decide

theorem witness_LoadEntersTheResetStateOfItsImage :
    (small 0).control ≠ .busy ∧ [1, 2, 3, 4, 5, 6, 7, (8 : Word)].length ≤ (small 0).cfg.memCapacity := by decide

theorem witness_OversizedLoadIsRefused :
    (small 0).control ≠ .busy ∧
      (small 0).cfg.memCapacity < [1, 2, 3, 4, 5, 6, 7, 8, (9 : Word)].length := by decide

theorem witness_LoadedProgramStartsAtAddressZero :
    command 0 (.load [99]) (small 0) = .next (loaded (capped 8) [99], .ok) ∧
    decode (small 0).cfg (fun k => [(99 : Word)].getD k 0) = .ok .halt ∧
    command 0 (.load []) (small 0) = .next (loaded (capped 8) [], .ok) ∧
    decode (small 0).cfg (fun k => ([] : List Word).getD k 0) = .error ⟨.badOpcode, 0⟩ :=
  ⟨next_of_got? (by decide), by decide, next_of_got? (by decide), by decide⟩

theorem witness_FeedAppendsUnlessTheQueueIsFull :
    let one := { config20 with inqDepth := some 1 }
    (loaded one []).control ≠ .busy ∧ one.inqDepth = some 1 ∧
    ({ loaded one [] with inq := [5] } : State).inq.length = 1 ∧ (loaded one []).inq.length ≠ 1 ∧
    (machine []).control ≠ .busy ∧ (machine []).cfg.inqDepth = none := by decide

theorem witness_SetLatchWritesTheLatchOnly : (machine []).control ≠ .busy := by decide

theorem witness_PeekAnswersTheWordAndChangesNothing :
    (small 0).control ≠ .busy ∧ (small 0).memLen ≤ (3 : BitVec 64).toNat ∧
      (2 : BitVec 64).toNat < (small 0).memLen := by decide

theorem witness_PokeStoresBelowTheCapacityElseIsRefused :
    (small 0).control ≠ .busy ∧ (7 : BitVec 64).toNat < (small 0).cfg.memCapacity ∧
      (small 0).cfg.memCapacity ≤ (8 : BitVec 64).toNat := by decide

theorem witness_StepOfAHaltedOrFaultedCoreExecutesNothing :
    (takeFault ⟨.badOpcode, 0⟩ (small 0)).fault ≠ none ∧
    ({ small 0 with halted := true } : State).fault = none ∧
    ({ small 0 with halted := true } : State).halted = true ∧
    (small 0).cfg.postHaltStep = .noop ∧
    ({ config20 with postHaltStep := .error } : Config).postHaltStep = .error := by decide

theorem witness_StatusPortShowsTheState :
    (takeFault ⟨.badMode, 1⟩ (small 0)).fault = some ⟨.badMode, 1, 0, 1⟩ ∧
    ({ small 0 with halted := true } : State).control = .halted ∧
    ({ small 0 with busy := true } : State).control = .busy ∧ (small 0).control = .idle := by decide

theorem witness_CommandWhileBusyIsRefusedByName :
    ({ small 0 with busy := true } : State).control = .busy := by decide

theorem witness_OnlyLoadLeavesAHaltedOrFaultedCore :
    (∀ image, Command.feed 5 ≠ .load image) ∧
    ({ small 0 with halted := true } : State).halted = true ∧
    command 1 (.feed 5) { small 0 with halted := true } =
      .next ({ small 0 with halted := true, inq := [5] }, .ok) ∧
    (takeFault ⟨.badOpcode, 0⟩ (small 0)).fault ≠ none ∧
    command 1 .step (takeFault ⟨.badOpcode, 0⟩ (small 0)) =
      .next (takeFault ⟨.badOpcode, 0⟩ (small 0), .fault) :=
  ⟨by simp, by decide, next_of_got? (by decide), by decide, next_of_got? (by decide)⟩

theorem witness_MemoryWriteGrowsAndZeroFills :
    (small 0).cfg.memCapacity ≤ 8 ∧ 7 < (small 0).cfg.memCapacity ∧ 2 < (small 0).memLen ∧
      (small 0).memLen ≤ 3 ∧ (small 0).memLen ≤ 7 := by decide

theorem witness_ModesReachOneMemory :
    let t := storeWord 7 9 (small 5)
    resolveAddr 3 ⟨.relative, 2⟩ (small 5) = .ok 7 ∧ memWrite 3 7 9 (small 5) = .ok t ∧
      (7 : Word).toInt = (small 5).rb.toInt + (2 : Word).toInt ∧ t.control ≠ .busy := by decide

theorem witness_ValueParametersResolveByMode :
    (-1 : Word).toInt < 0 ∧ 0 ≤ (0 : Word).toInt ∧ (small 5).rb.toInt + (-6 : Word).toInt < 0 ∧
      0 ≤ (small 5).rb.toInt + (-5 : Word).toInt := by decide

theorem witness_WriteParametersResolveToAddresses :
    (-1 : Word).toInt < 0 ∧ 0 ≤ (0 : Word).toInt ∧ (small 5).rb.toInt + (-6 : Word).toInt < 0 ∧
      0 ≤ (small 5).rb.toInt + (-5 : Word).toInt := by decide

theorem witness_JumpTargetsResolveByTheirSetting :
    (small 5).cfg.jumpTarget = .value ∧ resolveValue 2 (lit (-1)) (small 5) = .ok (-1) ∧
    resolveValue 2 ⟨.position, -1⟩ (small 5) = .error ⟨.negativeAddress, 2⟩ ∧
    (smallAddress 5).cfg.jumpTarget = .address ∧ (lit 4).mode = .immediate ∧
    (ValueParam.mk .relative (-5)).mode = WriteMode.relative.toMode ∧
    resolveAddr 2 ⟨.relative, -5⟩ (smallAddress 5) = .ok 0 ∧
    resolveAddr 2 ⟨.relative, -6⟩ (smallAddress 5) = .error ⟨.negativeAddress, 2⟩ := by decide

theorem witness_ArithBringsResultsIntoRange :
    (-(2 ^ 63) ≤ (2 ^ 63 - 1 : Int) ∧ (2 ^ 63 - 1 : Int) ≤ 2 ^ 63 - 1) ∧
    ¬ (-(2 ^ 63) ≤ (2 ^ 63 : Int) ∧ (2 ^ 63 : Int) ≤ 2 ^ 63 - 1) ∧
    config20.overflowMode = .fault ∧ wrapping.overflowMode = .wrap := by decide

theorem witness_AddStoresTheSum :
    resolveValue 1 (lit 9223372036854775807) (smallWrap 0) = .ok 9223372036854775807 ∧
    resolveValue 2 (lit 1) (smallWrap 0) = .ok 1 ∧ resolveAddr 3 (at_ 7) (smallWrap 0) = .ok 7 ∧
    7 < (smallWrap 0).cfg.memCapacity ∧ (smallWrap 0).cfg.overflowMode = .wrap ∧
    inI64 ((9223372036854775807 : Word).toInt + (0 : Word).toInt) := by decide

theorem witness_MulStoresTheProduct :
    resolveValue 1 (lit (-4611686018427387904)) (smallWrap 0) = .ok (-4611686018427387904) ∧
    resolveValue 2 (lit 2) (smallWrap 0) = .ok 2 ∧ resolveAddr 3 (at_ 7) (smallWrap 0) = .ok 7 ∧
    7 < (smallWrap 0).cfg.memCapacity ∧ (smallWrap 0).cfg.overflowMode = .wrap ∧
    inI64 ((-4611686018427387904 : Word).toInt * (2 : Word).toInt) := by decide

theorem witness_LessThanStoresTheTruthValue :
    resolveValue 1 (lit (-1)) (small 0) = .ok (-1) ∧ resolveValue 2 ⟨.position, 3⟩ (small 0) = .ok 0 ∧
    resolveAddr 3 (at_ 7) (small 0) = .ok 7 ∧ 7 < (small 0).cfg.memCapacity := by decide

theorem witness_EqualsStoresTheTruthValue :
    resolveValue 1 (lit 3) (small 0) = .ok 3 ∧ resolveValue 2 ⟨.position, 2⟩ (small 0) = .ok 3 ∧
    resolveAddr 3 (at_ 7) (small 0) = .ok 7 ∧ 7 < (small 0).cfg.memCapacity := by decide

theorem witness_InputStoresTheQueueHeadOrTheLatch :
    resolveAddr 1 (at_ 7) (small 0) = .ok 7 ∧ 7 < (small 0).cfg.memCapacity ∧
    ({ small 0 with inq := [4] } : State).inq = 4 :: [] ∧ (small 0).inq = [] := by decide

theorem witness_OutputLatchesTheValueAndSuspends :
    resolveValue 1 ⟨.relative, -5⟩ (small 5) = .ok 1 := by decide

theorem witness_JumpIfTrueSetsIpWhenNonzero :
    (lit 0).legalTarget (small 0).cfg = true ∧ resolveValue 1 (lit (-1)) (small 0) = .ok (-1) ∧
    resolveTarget (lit 0) (small 0) = .ok 0 ∧ (-1 : Word).toInt ≠ 0 ∧
    resolveValue 1 (lit 0) (small 0) = .ok 0 ∧ (0 : Word).toInt = 0 := by decide

theorem witness_JumpIfFalseSetsIpWhenZero :
    (ValueParam.mk .position 0).legalTarget (smallAddress 0).cfg = true ∧
    resolveValue 1 (lit 0) (smallAddress 0) = .ok 0 ∧
    resolveTarget ⟨.position, 0⟩ (smallAddress 0) = .ok 0 ∧ (0 : Word).toInt = 0 ∧
    resolveValue 1 (lit 1) (smallAddress 0) = .ok 1 ∧ (1 : Word).toInt ≠ 0 := by decide

theorem witness_AdjustBaseAddsToTheBase :
    resolveValue 1 (lit 9223372036854775807) (small 0) = .ok 9223372036854775807 ∧
    inI64 ((small 0).rb.toInt + (9223372036854775807 : Word).toInt) ∧
    resolveValue 1 (lit 9223372036854775807) (smallWrap 1) = .ok 9223372036854775807 ∧
    ¬ inI64 ((smallWrap 1).rb.toInt + (9223372036854775807 : Word).toInt) ∧
    (smallWrap 1).cfg.overflowMode = .wrap := by decide

theorem witness_OverflowFaultsUnderFaultMode :
    (small 1).cfg.overflowMode = .fault ∧
    resolveValue 1 (lit 9223372036854775807) (small 1) = .ok 9223372036854775807 ∧
    resolveValue 2 (lit 2) (small 1) = .ok 2 ∧ resolveAddr 3 (at_ 9) (small 1) = .ok 9 ∧
    ¬ inI64 ((9223372036854775807 : Word).toInt + (2 : Word).toInt) ∧
    ¬ inI64 ((9223372036854775807 : Word).toInt * (2 : Word).toInt) ∧
    ¬ inI64 ((small 1).rb.toInt + (9223372036854775807 : Word).toInt) := by decide

theorem witness_StoresBeyondCapacityFault :
    (small 0).cfg.memCapacity ≤ 8 ∧ resolveValue 1 (lit 2) (small 0) = .ok 2 ∧
    resolveValue 2 (lit 3) (small 0) = .ok 3 ∧ resolveAddr 3 (at_ 8) (small 0) = .ok 8 ∧
    inI64 ((2 : Word).toInt + (3 : Word).toInt) ∧ inI64 ((2 : Word).toInt * (3 : Word).toInt) ∧
    resolveAddr 1 (at_ 8) (small 0) = .ok 8 ∧ (smallWrap 0).cfg.overflowMode = .wrap := by decide

theorem witness_NegativeAddressFaultsLowestParameterFirst :
    ((-1 : Word).toInt < 0) ∧ (small 5).rb.toInt + (-6 : Word).toInt < 0 ∧
    ¬ (small 5).rb.toInt + (-5 : Word).toInt < 0 ∧ (lit 0).legalTarget (small 5).cfg = true := by decide

theorem witness_negativeEA :
    negativeEA (small 5) (-1) .position ∧ negativeEA (small 5) (-6) .relative ∧
      ¬ negativeEA (small 5) (-5) .relative ∧ ¬ negativeEA (small 5) (-6) .immediate := by
  simp only [negativeEA]
  decide

theorem witness_TakenJumpToANegativeTargetFaults :
    (lit (-1)).legalTarget (small 0).cfg = true ∧ resolveValue 1 (lit 1) (small 0) = .ok 1 ∧
    resolveTarget (lit (-1)) (small 0) = .ok (-1) ∧ (-1 : Int) < 0 ∧ (1 : Word).toInt ≠ 0 ∧
    resolveValue 1 (lit 0) (small 0) = .ok 0 ∧ (0 : Word).toInt = 0 := by decide

theorem witness_IllFormedJumpTargetTakesTheDecodersFault :
    (lit 4).legalTarget (smallAddress 0).cfg = false := by decide

theorem witness_InstructionsRaiseOnlyTheTablesFaults :
    (Instr.output ⟨.position, -1⟩).wellFormed (small 0).cfg = true ∧ (small 0).fault = none ∧
    exec (.output ⟨.position, -1⟩) (small 0) = .next (takeFault ⟨.negativeAddress, 1⟩ (small 0)) ∧
    (takeFault ⟨.negativeAddress, 1⟩ (small 0)).fault = some ⟨.negativeAddress, 1, 0, 1⟩ :=
  ⟨by decide, by decide, next_of_got? (by decide), by decide⟩

theorem witness_StepRunsTheDecodedInstruction :
    (machine [99]).Running ∧
      decode (machine [99]).cfg (fun k => memRead (machine [99]) ((machine [99]).ip + k)) = .ok .halt := by
  decide

theorem witness_StepTakesTheDecodersFault :
    (machine [103]).Running ∧
      decode (machine [103]).cfg (fun k => memRead (machine [103]) ((machine [103]).ip + k)) =
        .error ⟨.immediateWrite, 1⟩ := by decide

theorem witness_FaultEntryWritesTheRecordOnly :
    (machine [103]).Running ∧ step (machine [103]) = .next (takeFault ⟨.immediateWrite, 1⟩ (machine [103])) ∧
    (takeFault ⟨.immediateWrite, 1⟩ (machine [103])).fault = some ⟨.immediateWrite, 1, 0, 103⟩ :=
  ⟨by decide, next_of_got? (by decide), by decide⟩

theorem witness_FetchBeyondMemoryFaults : (machine []).Running ∧ (machine []).memLen ≤ (machine []).ip := by
  decide

/-- A next state in which each register has moved, one writer each. -/
theorem witness_EachRegisterHasItsOneWriter :
    (∃ t, step (machine [109, 3]) = .next t ∧ t.rb ≠ (machine [109, 3]).rb) ∧
    (∃ t, step (machine [104, 3]) = .next t ∧ t.out ≠ (machine [104, 3]).out) ∧
    (∃ t, step (machine [99]) = .next t ∧ t.halted ≠ (machine [99]).halted) ∧
    (∃ t, step { machine [3, 0] with inq := [7] } = .next t ∧ t.inq ≠ [7] ∧ memRead t 0 ≠ 3) :=
  ⟨⟨{ machine [109, 3] with ip := 2, rb := 3, busy := true }, next_of_got? (by decide), by decide⟩,
    ⟨{ machine [104, 3] with ip := 2, out := 3 }, next_of_got? (by decide), by decide⟩,
    ⟨{ machine [99] with halted := true }, next_of_got? (by decide), by decide⟩,
    ⟨{ machine [7, 0] with ip := 2, busy := true }, next_of_got? (by decide), by decide, by decide⟩⟩

theorem witness_MemoryLengthNeverShrinks :
    step (machine [99]) = .next { machine [99] with halted := true } ∧
    (∀ image, Command.poke 7 9 ≠ .load image) ∧
    command 1 (.poke 7 9) (small 0) = .next (storeWord 7 9 (small 0), .ok) :=
  ⟨next_of_got? (by decide), by simp, next_of_got? (by decide)⟩

theorem witness_LatchIsReadOnlyByInputOnAnEmptyQueue :
    step { machine [3, 0] with inq := [7] } = .next { machine [7, 0] with ip := 2, busy := true } ∧
    ({ machine [3, 0] with inq := [7] } : State).inq ≠ [] ∧
    step (machine [99]) = .next { machine [99] with halted := true } ∧
    ∀ dst, decode (machine [99]).cfg (fetchWords (machine [99])) ≠ .ok (.input dst) := by
  refine ⟨next_of_got? (by decide), by decide, next_of_got? (by decide), fun dst h => ?_⟩
  have hd : decode (machine [99]).cfg (fetchWords (machine [99])) = .ok .halt := by decide
  rw [hd] at h
  cases h

theorem witness_LastOutputReachesNoInstruction :
    step (machine [104, 3]) = .next { machine [104, 3] with ip := 2, out := 3 } :=
  next_of_got? (by decide)

/-- A machine with a queue, a base and a nonempty memory meets the invariant. -/
theorem small_inv : ({ small 5 with inq := [4] } : State).Inv where
  capacity := by decide
  canonical := by decide
  cellsBelow := by decide
  length := by decide
  ipWidth := by decide
  ipLegal := by decide
  queue := fun depth h => by cases h
  exclusive := by decide
  busyRunning := by decide
  record := fun r h => by cases h

theorem witness_StepKeepsTheInvariant :
    ({ small 5 with inq := [4] } : State).Inv ∧
      ∃ t, step { small 5 with inq := [4] } = .next t ∧ memRead t 0 = 3 :=
  ⟨small_inv, { loaded (capped 8) [3, 2, 3] with rb := 5, inq := [4], ip := 4, busy := true },
    next_of_got? (by decide), by decide⟩

theorem witness_HostCommandsKeepTheInvariant :
    ({ small 5 with inq := [4] } : State).Inv ∧
      command 1 (.poke 7 9) { small 5 with inq := [4] } =
        .next (storeWord 7 9 { small 5 with inq := [4] }, .ok) :=
  ⟨small_inv, next_of_got? (by decide)⟩

theorem witness_FivePhasesAreOneStep : (machine [99]).Running ∧ (machine [103]).Running := by decide

/-- A STEP that responds after two instructions. -/
theorem witness_StepRespondsOnlyAtASuspension :
    (machine [109, 3, 104, 5]).Running ∧
      stepCommand 2 (machine [109, 3, 104, 5]) =
        .next ({ machine [109, 3, 104, 5] with ip := 4, rb := 3, out := 5 }, .output 5) :=
  ⟨by decide, next_of_got? (by decide)⟩

theorem witness_TransactionIsTheRunOfSteps :
    stepTransaction 2 (machine [109, 3, 104, 5]) =
      .next ({ machine [109, 3, 104, 5] with ip := 4, rb := 3, out := 5 }, .output 5) :=
  next_of_got? (by decide)

theorem witness_StepHasOneOutcome :
    stepCommand 2 (machine [109, 3, 99]) =
      .next ({ machine [109, 3, 99] with ip := 2, rb := 3, halted := true }, .halt) ∧
    stepCommand 3 (machine [109, 3, 99]) =
      .next ({ machine [109, 3, 99] with ip := 2, rb := 3, halted := true }, .halt) :=
  ⟨next_of_got? (by decide), next_of_got? (by decide)⟩

theorem witness_CompletionReturnsTheLastDrainedOutput :
    drainAllOutputs 1 3 (machine [104, 7, 104, 8, 99]) =
      .next ({ machine [104, 7, 104, 8, 99] with ip := 4, out := 8, halted := true }, .done [7, 8]) ∧
    drainAllOutputs 1 2 (machine [104, 5, 0]) =
      .next ({ machine [104, 5, 0] with ip := 2, out := 5, fault := some ⟨.badOpcode, 0, 2, 0⟩ },
        .aborted (some ⟨.badOpcode, 0, 2, 0⟩) [5]) :=
  ⟨next_of_got? (by decide), next_of_got? (by decide)⟩

theorem witness_DecodeReadsBackEveryInstruction :
    (Instr.add ⟨.relative, 5⟩ (lit (-1)) (at_ 20)).wellFormed config20 = true ∧
      (Instr.jumpIfTrue (lit 1) ⟨.position, 4⟩).wellFormed addressed = true := by decide

theorem witness_DecodedInstructionsReencode :
    decode config20 (streamOf [203, 7]) = .ok (.input ⟨.relative, 7⟩) ∧
      config20.excessDigitMode = .fault ∧
      decode ignoring (streamOf [100099]) = .ok .halt ∧ ignoring.excessDigitMode = .ignore := by decide

/-- One word for each check of the decoder, in order, and one that passes all. -/
theorem witness_DecodeChecksInOrder :
    (-1 : Word).toInt < 0 ∧ 0 ≤ (98 : Word).toInt ∧ rolesOf .value (98 % 100) = none ∧
    rolesOf .value (30301 % 100) = some [.value, .value, .write] ∧ 2 < digit 30301 2 ∧
    rolesOf .value (11107 % 100) = some [.value, .value, .write] ∧
    paramPasses 11107 1 .value = true ∧ paramPasses 11107 2 .value = true ∧ digit 11107 4 = 1 ∧
    rolesOf .value (199 % 100) = some [] ∧ config20.excessDigitMode = .fault ∧ 199 / 100 / 10 ^ 0 ≠ 0 ∧
    rolesOf .address (105 % 100) = some [.value, .write] ∧ paramPasses 105 1 .value = true ∧
    paramPasses 105 2 .write = true ∧ 105 / 100 / 10 ^ 2 = 0 ∧ ignoring.excessDigitMode = .ignore := by decide

theorem witness_LegalWordsAreTheTables :
    config20.excessDigitMode = .fault ∧ config20.jumpTarget = .value ∧
      addressed.excessDigitMode = .fault ∧ addressed.jumpTarget = .address := by decide

theorem witness_PseudoInstructionsHaveTheirWords : addressed.jumpTarget = .address := by decide

end Sys2Proof.Tests
end

section
/-!
PROOFS. The scope rules of 00_scope.md: the range rule (R12), the fault it raises in the three
instructions that obey it, and the one outcome of a STEP (R19).
-/

namespace Sys2Proof.Machine

/-! ### The range rule -/

theorem arith_eq_ok_of_inI64 (c : Config) {v : Int} (h : inI64 v) : arith c v = .ok (wrap64 v) :=
  if_pos h

theorem arith_eq_error_of_fault {c : Config} {v : Int} (h : ¬ inI64 v) (hm : c.overflowMode = .fault) :
    arith c v = .error ⟨.arithOverflow, 0⟩ := by
  simp [arith, h, hm]

theorem arith_eq_ok_of_wrap {c : Config} (v : Int) (hm : c.overflowMode = .wrap) :
    arith c v = .ok (wrap64 v) := by
  simp [arith, hm]

/-- The signed values of two words lie less than 2^64 apart, so congruent ones are equal: the word
that D10 speaks of is unique. -/
theorem congr_iff_eq_wrap64 (r : Word) (v : Int) : (2 ^ 64 : Int) ∣ r.toInt - v ↔ r = wrap64 v := by
  constructor
  · intro hr
    have hdiff : (2 ^ 64 : Int) ∣ r.toInt - (wrap64 v).toInt := by
      simpa using Int.dvd_sub hr (wrap64_congr v)
    obtain ⟨hr₁, hr₂⟩ := inI64_toInt r
    obtain ⟨hw₁, hw₂⟩ := inI64_toInt (wrap64 v)
    exact BitVec.eq_of_toInt_eq (by omega)
  · rintro rfl
    exact wrap64_congr v

/-- Settles O18: the three cases of `arith`, and congruence as equality with `wrap64`. -/
theorem arithBringsResultsIntoRange : Obligations.ArithBringsResultsIntoRange := by
  intro c v
  refine ⟨fun h => ?_, arith_eq_error_of_fault, fun _ hm => arith_eq_ok_of_wrap v hm,
    fun r => congr_iff_eq_wrap64 r v⟩
  exact ⟨wrap64 v, arith_eq_ok_of_inI64 c h, wrap64_toInt h⟩

/-! ### Overflow as a fault -/

/-- A raise at resolve or execute ends the instruction with that fault. -/
theorem exec_of_effectsOf_error {i : Instr} {s : State} {x : Raise} (h : effectsOf i s = .error x) :
    exec i s = .next (s.faultedWith x.code x.param) := by
  rw [exec_eq_complete, h]
  rfl

section
variable {a b : ValueParam} {dst : WriteParam} {s : State} {x y : Word} {d : Nat}

theorem effectsOf_add (h : resolveThree a b dst s = .ok (x, y, d)) :
    effectsOf (.add a b dst) s = addEffects x y d s := by
  simp only [effectsOf, resolveInstr, h]
  rfl

theorem effectsOf_mul (h : resolveThree a b dst s = .ok (x, y, d)) :
    effectsOf (.mul a b dst) s = mulEffects x y d s := by
  simp only [effectsOf, resolveInstr, h]
  rfl

theorem effectsOf_adjustBase (h : resolveValue 1 a s = .ok x) :
    effectsOf (.adjustBase a) s = adjustBaseEffects x s := by
  simp only [effectsOf, resolveInstr, h]
  rfl

end

/-- An out-of-range result raises whatever effects would have been built from it, so before their
capacity check (60_exceptions.md R124). -/
theorem arith_map_eq_error {c : Config} {v : Int} (f : Word → Effects) (h : ¬ inI64 v)
    (hm : c.overflowMode = .fault) : (arith c v).map f = .error ⟨.arithOverflow, 0⟩ := by
  rw [arith_eq_error_of_fault h hm]
  rfl

/-- Settles O29: the effects of each instruction are its range rule mapped, and its raise is the
instruction's fault. -/
theorem overflowFaultsUnderFaultMode : Obligations.OverflowFaultsUnderFaultMode := by
  intro s hm
  refine ⟨fun a b dst x y d hx hy hd => ?_, fun a x hx hv => ?_⟩
  · have hr := resolveThree_ok_iff.mpr ⟨hx, hy, hd⟩
    exact ⟨fun hv => exec_of_effectsOf_error ((effectsOf_add hr).trans (arith_map_eq_error _ hv hm)),
      fun hv => exec_of_effectsOf_error ((effectsOf_mul hr).trans (arith_map_eq_error _ hv hm))⟩
  · exact exec_of_effectsOf_error ((effectsOf_adjustBase hx).trans (arith_map_eq_error _ hv hm))

/-! ### The one outcome of a STEP -/

/-- A larger bound keeps the response: the loop stops at the same instruction. -/
theorem stepTransaction_mono {m n : Nat} {s : State} {x : State × Response} (hmn : m ≤ n)
    (h : stepTransaction m s = .next x) : stepTransaction n s = .next x := by
  induction m generalizing n s with
  | zero => cases h
  | succ m ih =>
    obtain ⟨k, rfl⟩ : ∃ k, n = k + 1 := Nat.exists_eq_add_of_le' (by omega)
    obtain ⟨t, ht⟩ := step_next s
    rw [stepTransaction_succ _ ht] at h ⊢
    by_cases hb : t.busy
    · rw [if_pos hb] at h ⊢
      exact ih (by omega) h
    · rwa [if_neg hb] at h ⊢

/-- Only a running core's STEP uses the bound at all (40_execution_cycle.md R97, R98). -/
theorem stepCommand_mono {m n : Nat} {s : State} {x : State × Response} (hmn : m ≤ n)
    (h : stepCommand m s = .next x) : stepCommand n s = .next x := by
  unfold stepCommand at h ⊢
  split_ifs at h ⊢ with hf hh
  · exact h
  · exact h
  · exact stepTransaction_mono hmn h

/-- Settles O49: both responses are the response with the larger bound. -/
theorem stepHasOneOutcome : Obligations.StepHasOneOutcome := by
  intro m n s x y hx hy
  have hx' := stepCommand_mono (le_max_left m n) hx
  have hy' := stepCommand_mono (le_max_right m n) hy
  exact Host.Outcome.next.inj (hx'.symm.trans hy')

end Sys2Proof.Machine
end

section
/-!
PROOFS. The state of 10_state.md: what a step and a host command can do to it, the invariant of R36,
the one writer of each register (R21 to R28), and the latches no other instruction reads.
-/

namespace Sys2Proof.Machine

open Host (Outcome)

/-! ### The parameter index of a raise -/

/-- A raise with the parameter index that 60_exceptions.md R122 gives its code, whatever `ip` and word
are recorded with it. -/
def LegalRaise (x : Raise) : Prop :=
  ∀ fip fword, FaultRecord.paramLegal ⟨x.code, x.param, fip, fword⟩ = true

/-- The three codes that name the parameter at fault have its index, whichever it is. -/
theorem legalRaise_of_param_ne_zero {code : FaultCode} {i : Fin 4}
    (hcode : code = .badMode ∨ code = .immediateWrite ∨ code = .negativeAddress) (hi : i ≠ 0) :
    LegalRaise ⟨code, i⟩ := by
  rcases hcode with rfl | rfl | rfl <;> exact fun _ _ => bne_iff_ne.mpr hi

/-- Every raise of `r` is legal. -/
def RaisesLegally {α : Type} (r : Except Raise α) : Prop :=
  ∀ x, r = .error x → LegalRaise x

section
variable {α β : Type}

theorem raisesLegally_ok (a : α) : RaisesLegally (.ok a : Except Raise α) :=
  fun _ h => nomatch h

theorem raisesLegally_error {x : Raise} (h : LegalRaise x) :
    RaisesLegally (.error x : Except Raise α) := by
  intro y hy
  cases hy
  exact h

theorem RaisesLegally.bind {r : Except Raise α} {f : α → Except Raise β} (hr : RaisesLegally r)
    (hf : ∀ a, RaisesLegally (f a)) : RaisesLegally (r >>= f) := by
  cases r with
  | error x => exact raisesLegally_error (hr x rfl)
  | ok a => exact hf a

theorem RaisesLegally.map {r : Except Raise α} (hr : RaisesLegally r) (f : α → β) :
    RaisesLegally (r.map f) := by
  cases r with
  | error x => exact raisesLegally_error (hr x rfl)
  | ok a => exact raisesLegally_ok (f a)

end

/-! ### Every raise of the decoder is legal -/

theorem valueMode_raisesLegally (w : Nat) {i : Fin 4} (hi : i ≠ 0) : RaisesLegally (valueMode w i) := by
  unfold valueMode
  split
  · exact raisesLegally_ok _
  · exact raisesLegally_error (legalRaise_of_param_ne_zero (by simp) hi)

theorem writeMode_raisesLegally (w : Nat) {i : Fin 4} (hi : i ≠ 0) : RaisesLegally (writeMode w i) := by
  unfold writeMode
  split
  · exact raisesLegally_ok _
  · exact raisesLegally_error (legalRaise_of_param_ne_zero (by simp) hi)
  · exact raisesLegally_ok _
  · exact raisesLegally_error (legalRaise_of_param_ne_zero (by simp) hi)

theorem targetMode_raisesLegally (c : Config) (w : Nat) : RaisesLegally (targetMode c w) := by
  unfold targetMode
  split
  · exact valueMode_raisesLegally w (by decide)
  · exact (writeMode_raisesLegally w (by decide)).map _

theorem checkExcess_raisesLegally (c : Config) (w n : Nat) : RaisesLegally (checkExcess c w n) := by
  unfold checkExcess
  split
  · exact raisesLegally_error (fun _ _ => rfl)
  · exact raisesLegally_ok _

theorem decodeF3_raisesLegally (c : Config) (w : Nat) (mk : Mode → Mode → WriteMode → Header) :
    RaisesLegally (decodeF3 c w mk) :=
  (valueMode_raisesLegally w (by decide)).bind fun _ =>
    (valueMode_raisesLegally w (by decide)).bind fun _ =>
      (writeMode_raisesLegally w (by decide)).bind fun _ =>
        (checkExcess_raisesLegally c w 3).bind fun _ => raisesLegally_ok _

theorem decodeF2_raisesLegally (c : Config) (w : Nat) (mk : Mode → Mode → Header) :
    RaisesLegally (decodeF2 c w mk) :=
  (valueMode_raisesLegally w (by decide)).bind fun _ =>
    (targetMode_raisesLegally c w).bind fun _ =>
      (checkExcess_raisesLegally c w 2).bind fun _ => raisesLegally_ok _

theorem decodeF1Value_raisesLegally (c : Config) (w : Nat) (mk : Mode → Header) :
    RaisesLegally (decodeF1Value c w mk) :=
  (valueMode_raisesLegally w (by decide)).bind fun _ =>
    (checkExcess_raisesLegally c w 1).bind fun _ => raisesLegally_ok _

theorem decodeF1Write_raisesLegally (c : Config) (w : Nat) (mk : WriteMode → Header) :
    RaisesLegally (decodeF1Write c w mk) :=
  (writeMode_raisesLegally w (by decide)).bind fun _ =>
    (checkExcess_raisesLegally c w 1).bind fun _ => raisesLegally_ok _

theorem decodeF0_raisesLegally (c : Config) (w : Nat) (h : Header) : RaisesLegally (decodeF0 c w h) :=
  (checkExcess_raisesLegally c w 0).bind fun _ => raisesLegally_ok _

theorem decodeWord_raisesLegally (c : Config) (word : Word) : RaisesLegally (decodeWord c word) := by
  unfold decodeWord
  split
  · exact raisesLegally_error (fun _ _ => rfl)
  · dsimp only
    split
    · exact decodeF3_raisesLegally c _ _
    · exact decodeF3_raisesLegally c _ _
    · exact decodeF1Write_raisesLegally c _ _
    · exact decodeF1Value_raisesLegally c _ _
    · exact decodeF2_raisesLegally c _ _
    · exact decodeF2_raisesLegally c _ _
    · exact decodeF3_raisesLegally c _ _
    · exact decodeF3_raisesLegally c _ _
    · exact decodeF1Value_raisesLegally c _ _
    · exact decodeF0_raisesLegally c _ _
    · exact raisesLegally_error (fun _ _ => rfl)

theorem fetchDecode_raisesLegally (s : State) : RaisesLegally (fetchDecode s) :=
  (decodeWord_raisesLegally s.cfg _).map _

/-! ### Every raise of an instruction is legal -/

theorem resolveValue_raisesLegally {i : Fin 4} (hi : i ≠ 0) (p : ValueParam) (s : State) :
    RaisesLegally (resolveValue i p s) := by
  rcases resolveValue_cases i p s with ⟨_, h⟩ | ⟨_, _, ⟨_, h⟩ | ⟨_, h⟩⟩ <;> rw [h]
  · exact raisesLegally_ok _
  · exact raisesLegally_ok _
  · exact raisesLegally_error (legalRaise_of_param_ne_zero (by simp) hi)

theorem resolveAddr_raisesLegally {i : Fin 4} (hi : i ≠ 0) (p : WriteParam) (s : State) :
    RaisesLegally (resolveAddr i p s) := by
  rcases resolveAddr_cases i p s with ⟨_, _, ⟨_, h⟩ | ⟨_, h⟩⟩ <;> rw [h]
  · exact raisesLegally_ok _
  · exact raisesLegally_error (legalRaise_of_param_ne_zero (by simp) hi)

theorem resolveTarget_raisesLegally (p : ValueParam) (s : State) : RaisesLegally (resolveTarget p s) := by
  unfold resolveTarget
  split
  · exact (resolveValue_raisesLegally (by decide) p s).map _
  · split
    · exact (resolveAddr_raisesLegally (by decide) _ s).map _
    · exact raisesLegally_error (fun _ _ => rfl)
    · exact (resolveAddr_raisesLegally (by decide) _ s).map _

theorem resolveThree_raisesLegally (a b : ValueParam) (dst : WriteParam) (s : State) :
    RaisesLegally (resolveThree a b dst s) :=
  (resolveValue_raisesLegally (by decide) a s).bind fun _ =>
    (resolveValue_raisesLegally (by decide) b s).bind fun _ =>
      (resolveAddr_raisesLegally (by decide) dst s).bind fun _ => raisesLegally_ok _

theorem resolveJump_raisesLegally (cond target : ValueParam) (s : State) :
    RaisesLegally (resolveJump cond target s) := by
  unfold resolveJump
  split
  · exact (resolveValue_raisesLegally (by decide) cond s).bind fun _ =>
      (resolveTarget_raisesLegally target s).bind fun _ => raisesLegally_ok _
  · exact raisesLegally_error (fun _ _ => rfl)

theorem resolveInstr_raisesLegally (s : State) (i : Instr) : RaisesLegally (resolveInstr s i) := by
  cases i with
  | add a b dst | mul a b dst | lessThan a b dst | equals a b dst =>
    exact (resolveThree_raisesLegally a b dst s).map _
  | input dst => exact (resolveAddr_raisesLegally (by decide) dst s).map _
  | output a | adjustBase a => exact (resolveValue_raisesLegally (by decide) a s).map _
  | jumpIfTrue cond target | jumpIfFalse cond target =>
    exact (resolveJump_raisesLegally cond target s).map _
  | halt => exact raisesLegally_ok _

theorem arith_raisesLegally (c : Config) (v : Int) : RaisesLegally (arith c v) := by
  rcases arith_cases c v with ⟨_, h⟩ | ⟨_, _, h⟩ | ⟨_, _, h⟩ <;> rw [h]
  · exact raisesLegally_ok _
  · exact raisesLegally_ok _
  · exact raisesLegally_error (fun _ _ => rfl)

theorem jumpEffects_raisesLegally (taken : Bool) (target : Int) (s : State) :
    RaisesLegally (jumpEffects taken target s) := by
  unfold jumpEffects
  split_ifs
  · exact raisesLegally_error (fun _ _ => rfl)
  · exact raisesLegally_ok _
  · exact raisesLegally_ok _

theorem inputEffects_raisesLegally (d : Nat) (s : State) : RaisesLegally (inputEffects d s) := by
  unfold inputEffects
  split <;> exact raisesLegally_ok _

theorem effects_raisesLegally (s : State) (r : Resolved) : RaisesLegally (r.effects s) := by
  cases r with
  | add x y d | mul x y d | adjustBase x => exact (arith_raisesLegally s.cfg _).map _
  | jumpIfTrue cond target | jumpIfFalse cond target => exact jumpEffects_raisesLegally _ target s
  | input d => exact inputEffects_raisesLegally d s
  | output x | lessThan x y d | equals x y d | halt => exact raisesLegally_ok _

theorem effectsOf_raisesLegally (i : Instr) (s : State) : RaisesLegally (effectsOf i s) :=
  (resolveInstr_raisesLegally s i).bind (effects_raisesLegally s)

/-- The capacity check records the index of the write parameter: 1 of input, 3 of the others. -/
theorem effectsOf_write_param {i : Instr} {s : State} {e : Effects} {w : PendingWrite}
    (h : effectsOf i s = .ok e) (hw : e.write = some w) : w.param = 1 ∨ w.param = 3 := by
  rcases effectsOf_ok h with ⟨_, _, _, rfl⟩ | ⟨_, _, _, _, _, _, rfl⟩ | ⟨_, _, _, _, rfl⟩ |
    ⟨_, _, _, rfl⟩ | ⟨_, _, _, rfl | ⟨_, _, _, _, rfl⟩⟩ | ⟨_, _, _, rfl⟩ | ⟨_, rfl⟩ <;> cases hw
  · exact .inr rfl
  · exact .inl rfl
  · exact .inl rfl

theorem legalRaise_capacityExceeded {p : Fin 4} (hp : p = 1 ∨ p = 3) : LegalRaise ⟨.capacityExceeded, p⟩ := by
  rcases hp with rfl | rfl <;> exact fun _ _ => rfl

/-! ### What a step can do -/

/-- The next state of a step: the same one when the core may not execute, else a fault with a legal
parameter index, or a commit of the decoded instruction's effects, any write below the capacity. -/
theorem step_next_cases {s t : State} (h : step s = .next t) :
    ((s.fault.isSome = true ∨ s.halted = true) ∧ t = s) ∨
    (s.Running ∧ ∃ x, LegalRaise x ∧ t = takeFault x s) ∨
    (s.Running ∧ ∃ i e, fetchDecode s = .ok i ∧ effectsOf i s = .ok e ∧
      (∀ w, e.write = some w → w.addr < s.cfg.memCapacity) ∧ t = commit s e) := by
  rcases step_cases s with ⟨hs, h'⟩ | ⟨hf, hh, ⟨x, hx, h'⟩ | ⟨i, hi, h'⟩⟩ <;>
    have h := h'.symm.trans h
  · cases h
    exact .inl ⟨hs, rfl⟩
  · cases h
    exact .inr (.inl ⟨⟨hh, hf⟩, x, fetchDecode_raisesLegally s x hx, rfl⟩)
  · rcases exec_cases i s with ⟨e, he, hw, h''⟩ | ⟨x, h'', hx⟩ <;> have h := h''.symm.trans h <;> cases h
    · exact .inr (.inr ⟨⟨hh, hf⟩, i, e, hi, he, hw, rfl⟩)
    · refine .inr (.inl ⟨⟨hh, hf⟩, x, ?_, rfl⟩)
      rcases hx with hx | ⟨e, w, he, hw, _, rfl⟩
      · exact effectsOf_raisesLegally i s x hx
      · exact legalRaise_capacityExceeded (effectsOf_write_param he hw)

/-! ### The bounds of the next `ip` -/

theorem resolveAddr_lt {i : Fin 4} {p : WriteParam} {s : State} {d : Nat} (h : resolveAddr i p s = .ok d) :
    d < 2 ^ 64 := by
  obtain ⟨ea, hea, ⟨h0, h'⟩ | ⟨_, h'⟩⟩ := resolveAddr_cases i p s <;> rw [h'] at h <;> cases h
  have hraw := (inI64_toInt p.raw).2
  have hrb := (inI64_toInt s.rb).2
  omega

/-- A target is below 2^63 as a signed word, below 2^64 as an address (assumption log 8). -/
theorem resolveTarget_lt {p : ValueParam} {s : State} {g : Int} (h : resolveTarget p s = .ok g) :
    g < 2 ^ 64 ∧ (s.cfg.jumpTarget = .value → g < 2 ^ 63) := by
  have address : ∀ {q : WriteParam}, s.cfg.jumpTarget = .address →
      (resolveAddr 2 q s).map Int.ofNat = .ok g → g < 2 ^ 64 ∧ (s.cfg.jumpTarget = .value → g < 2 ^ 63) := by
    intro q hj hq
    cases hr : resolveAddr 2 q s <;> rw [hr] at hq <;> cases hq
    have := resolveAddr_lt hr
    exact ⟨by simp only [Int.ofNat_eq_natCast]; omega, by simp [hj]⟩
  unfold resolveTarget at h
  split at h
  · cases hr : resolveValue 2 p s <;> rw [hr] at h <;> cases h
    rename_i w
    have := (inI64_toInt w).2
    exact ⟨by omega, fun _ => by omega⟩
  · rename_i hj
    split at h
    · exact address hj h
    · cases h
    · exact address hj h

/-- An instruction falls through by at most 4 words or goes to a jump's target. -/
theorem effectsOf_ip {i : Instr} {s : State} {e : Effects} (h : effectsOf i s = .ok e) :
    e.ip ≤ s.ip + 4 ∨ (e.ip < 2 ^ 64 ∧ (s.cfg.jumpTarget = .value → e.ip < 2 ^ 63)) := by
  rcases effectsOf_ok h with ⟨_, _, _, rfl⟩ | ⟨_, _, _, _, _, _, rfl⟩ | ⟨_, _, _, _, rfl⟩ |
    ⟨_, _, _, rfl⟩ | ⟨_, _, _, rfl | ⟨_, g, hr, _, rfl⟩⟩ | ⟨_, _, _, rfl⟩ | ⟨_, rfl⟩
  · exact .inl le_rfl
  · exact .inl (by simp)
  · exact .inl (by simp)
  · exact .inl (by simp)
  · exact .inl (by simp)
  · obtain ⟨_, _, ht⟩ := resolveJump_ok_iff.mp hr
    obtain ⟨h64, h63⟩ := resolveTarget_lt ht
    exact .inr ⟨(Int.toNat_lt' (by decide)).mpr h64, fun hj => (Int.toNat_lt' (by decide)).mpr (h63 hj)⟩
  · exact .inl (by simp)
  · exact .inl (by simp)

/-! ### What an instruction's effects can change -/

/-- The one writer of each register and of memory among the instructions (10_state.md R21, R24 to
R28), and that halting ends the transaction. -/
theorem effectsOf_writers {i : Instr} {s : State} {e : Effects} (h : effectsOf i s = .ok e) :
    (e.rb ≠ s.rb → ∃ a, i = .adjustBase a) ∧
    (e.out ≠ s.out → ∃ a, i = .output a) ∧
    (e.halted = true → i = .halt ∧ e.event ≠ .none) ∧
    (e.pop = true → ∃ dst, i = .input dst ∧ ∃ v q, s.inq = v :: q) ∧
    (e.write ≠ none → i.opcode ∈ [1, 2, 3, 7, 8]) := by
  rcases effectsOf_ok h with ⟨hop, _, _, rfl⟩ | ⟨_, _, _, _, rfl, hq, rfl⟩ | ⟨_, _, rfl, _, rfl⟩ |
    ⟨_, _, rfl, rfl⟩ | ⟨_, _, _, rfl | ⟨_, _, _, _, rfl⟩⟩ | ⟨_, _, rfl, rfl⟩ | ⟨rfl, rfl⟩
  case inl =>
    have hop' : i.opcode ∈ [1, 2, 3, 7, 8] := by
      simp only [List.mem_cons] at hop ⊢
      tauto
    simp [hop']
  case inr.inl => simp [Instr.opcode, hq]
  all_goals simp [Instr.opcode]

theorem storedBy_of_write_none {s : State} {e : Effects} (h : e.write = none) : storedBy s e = s := by
  simp [storedBy, h]

theorem storedBy_of_write_some {s : State} {e : Effects} {w : PendingWrite} (h : e.write = some w) :
    storedBy s e = storeWord w.addr w.value s := by
  simp [storedBy, h]

@[simp] theorem storedBy_cfg (s : State) (e : Effects) : (storedBy s e).cfg = s.cfg := by
  unfold storedBy
  split <;> simp

theorem memLen_le_storedBy (s : State) (e : Effects) : s.memLen ≤ (storedBy s e).memLen := by
  unfold storedBy
  split <;> simp

/-- A queue that a commit changed has lost its head. -/
theorem inq_eq_cons_of_commit_ne {i : Instr} {s : State} {e : Effects} (h : effectsOf i s = .ok e)
    (hq : (commit s e).inq ≠ s.inq) :
    (∃ dst, i = .input dst) ∧ ∃ v, s.inq = v :: (commit s e).inq := by
  obtain ⟨-, -, -, hpop, -⟩ := effectsOf_writers h
  cases hp : e.pop with
  | false => simp [hp] at hq
  | true =>
    obtain ⟨dst, hi, v, q, hs⟩ := hpop hp
    exact ⟨⟨dst, hi⟩, v, by simp [hp, hs]⟩

/-! ### The invariant -/

/-- A fault of a running core keeps the invariant. -/
theorem inv_takeFault {s : State} {x : Raise} (h : s.Inv) (hrun : s.Running)
    (hx : LegalRaise x) : (takeFault x s).Inv where
  capacity := h.capacity
  canonical := h.canonical
  cellsBelow := h.cellsBelow
  length := h.length
  ipWidth := h.ipWidth
  ipLegal := h.ipLegal
  queue := h.queue
  exclusive hh := by simp [hrun.1] at hh
  busyRunning hb := by simp at hb
  record r hr := by
    cases hr
    exact ⟨rfl, hx _ _⟩

/-- A store below the capacity keeps the invariant. -/
theorem inv_storeWord {s : State} (h : s.Inv) {a : Nat} (v : Word) (ha : a < s.cfg.memCapacity) :
    (storeWord a v s).Inv where
  capacity := by simpa using h.capacity
  canonical := wf_storeWord h.canonical a v
  cellsBelow := cells_storeWord h.cellsBelow a v
  length := by simpa using ⟨h.length, ha⟩
  ipWidth := by simpa using h.ipWidth
  ipLegal := by simpa using h.ipLegal
  queue := by simpa using h.queue
  exclusive := by simpa using h.exclusive
  busyRunning := by simpa using h.busyRunning
  record := by simpa using h.record

/-- The memory a commit leaves is that of a state meeting the invariant. -/
theorem inv_storedBy {s : State} {e : Effects} (h : s.Inv)
    (hw : ∀ w, e.write = some w → w.addr < s.cfg.memCapacity) : (storedBy s e).Inv := by
  cases hwr : e.write with
  | none => rwa [storedBy_of_write_none hwr]
  | some w =>
    rw [storedBy_of_write_some hwr]
    exact inv_storeWord h w.value (hw w hwr)

/-- A commit of a decoded instruction's effects keeps the invariant. That `ip` fits its bounds turns
on the instruction standing below `memLen`, so below 2^63. -/
theorem inv_commit {s : State} {i : Instr} {e : Effects} (h : s.Inv) (hrun : s.Running)
    (hi : fetchDecode s = .ok i) (he : effectsOf i s = .ok e)
    (hw : ∀ w, e.write = some w → w.addr < s.cfg.memCapacity) : (commit s e).Inv := by
  have hip : s.ip < 2 ^ 63 := calc
    s.ip < s.memLen := ip_lt_memLen hi
    _ ≤ s.cfg.memCapacity := h.length
    _ ≤ 2 ^ 63 := h.capacity.2
  have hstored := inv_storedBy h hw
  obtain ⟨hhalted, hfault⟩ := hrun
  obtain ⟨-, -, hhalt, -, -⟩ := effectsOf_writers he
  refine
    { capacity := by simpa using h.capacity
      canonical := hstored.canonical
      cellsBelow := hstored.cellsBelow
      length := by simpa using hstored.length
      ipWidth := ?_, ipLegal := fun hj => ?_, queue := fun depth hd => ?_
      exclusive := fun _ => by simpa using hfault
      busyRunning := fun hb => ⟨?_, by simpa using hfault⟩
      record := fun r hr => by simp [hfault] at hr }
  · rw [commit_ip]
    rcases effectsOf_ip he with hle | ⟨hlt, -⟩ <;> omega
  · rw [commit_ip]
    rcases effectsOf_ip he with hle | ⟨-, hlt⟩
    · omega
    · have := hlt (by simpa using hj)
      omega
  · have hq := h.queue depth (by simpa using hd)
    rw [commit_inq]
    split
    · rw [List.length_tail]
      omega
    · exact hq
  · rw [commit_halted, hhalted, Bool.false_or, Bool.eq_false_iff]
    exact fun hh => (hhalt hh).2 (by simpa using hb)

/-- Settles O44: a stopped core stays as it is, a fault and a commit keep the invariant. -/
theorem stepKeepsTheInvariant : Obligations.StepKeepsTheInvariant := by
  intro s t h hst
  rcases step_next_cases hst with ⟨_, rfl⟩ | ⟨hrun, x, hx, rfl⟩ | ⟨hrun, i, e, hi, he, hw, rfl⟩
  · exact h
  · exact inv_takeFault h hrun hx
  · exact inv_commit h hrun hi he hw

/-! ### What a host command can do -/

/-- A property that every step keeps is kept by the loop of STEP. -/
theorem stepTransaction_keeps {P : State → Prop} (hP : ∀ s t, P s → step s = .next t → P t)
    {budget : Nat} {s t : State} {r : Response} (hs : P s) (h : stepTransaction budget s = .next (t, r)) :
    P t := by
  induction budget generalizing s with
  | zero => cases h
  | succ budget ih =>
    obtain ⟨u, hu⟩ := step_next s
    rw [stepTransaction_succ _ hu] at h
    split at h
    · exact ih (hP s u hs hu) h
    · cases h
      exact hP s _ hs hu

/-- The state after a host command's response: unchanged, the one register the command writes, a
loaded image, or the end of a running core's transaction. -/
theorem command_next_cases {budget : Nat} {c : Command} {s t : State} {r : Response}
    (h : command budget c s = .next (t, r)) :
    t = s ∨
    (∃ image, c = .load image ∧ image.length ≤ s.cfg.memCapacity ∧ t = loaded s.cfg image) ∨
    (∃ v, s.queueFull = false ∧ t = { s with inq := s.inq ++ [v] }) ∨
    (∃ v, t = { s with latch := v }) ∨
    (∃ a v, a < s.cfg.memCapacity ∧ t = storeWord a v s) ∨
    (s.Running ∧ stepTransaction budget s = .next (t, r)) := by
  unfold command at h
  split at h
  · cases h
  cases c with
  | load image =>
    simp only [loadCommand] at h
    split at h <;> cases h
    · exact .inl rfl
    · exact .inr (.inl ⟨image, rfl, by omega, rfl⟩)
  | feed v =>
    simp only [feedCommand] at h
    split at h <;> cases h
    · exact .inl rfl
    · rename_i hfull
      exact .inr (.inr (.inl ⟨v, by simpa using hfull, rfl⟩))
  | setLatch v =>
    cases h
    exact .inr (.inr (.inr (.inl ⟨v, rfl⟩)))
  | peek a =>
    cases h
    exact .inl rfl
  | poke a v =>
    simp only [pokeCommand] at h
    rcases memWrite_cases 0 a.toNat v s with ⟨ha, hm⟩ | ⟨_, hm⟩ <;> rw [hm] at h <;> cases h
    · exact .inr (.inr (.inr (.inr (.inl ⟨a.toNat, v, ha, rfl⟩))))
    · exact .inl rfl
  | step =>
    simp only [stepCommand] at h
    split_ifs at h with hf hh
    · cases h
      exact .inl rfl
    · cases h
      exact .inl rfl
    · exact .inr (.inr (.inr (.inr (.inr ⟨⟨by simpa using hh, by simpa using hf⟩, h⟩))))

/-! ### The invariant and the host's commands -/

/-- The state LOAD gives meets the invariant when the image fits. -/
theorem inv_loaded {c : Config} {image : List Word} (hc : c.wf) (hlen : image.length ≤ c.memCapacity) :
    (loaded c image).Inv where
  capacity := hc
  canonical := wf_ofImage 0 image
  cellsBelow cell hcell := by simpa [loaded] using (mem_ofImage hcell).2.1
  length := hlen
  ipWidth := by simp [loaded, State.reset]
  ipLegal _ := by simp [loaded, State.reset]
  queue depth _ := Nat.zero_le depth
  exclusive _ := rfl
  busyRunning _ := ⟨rfl, rfl⟩
  record _ hr := nomatch hr

/-- One entry more fits a queue within its depth that is not full. -/
theorem length_lt_of_queueFull_false {s : State} {depth : Nat} (hfull : s.queueFull = false)
    (hd : s.cfg.inqDepth = some depth) (hle : s.inq.length ≤ depth) : s.inq.length < depth := by
  have hne : s.inq.length ≠ depth := by simpa [State.queueFull, hd] using hfull
  omega

/-- Settles O45: each command's own write keeps the invariant, and STEP's loop by O44. -/
theorem hostCommandsKeepTheInvariant : Obligations.HostCommandsKeepTheInvariant := by
  intro budget c s t r h hc
  rcases command_next_cases hc with rfl | ⟨image, _, hlen, rfl⟩ | ⟨v, hfull, rfl⟩ | ⟨v, rfl⟩ |
    ⟨a, v, ha, rfl⟩ | ⟨_, hstep⟩
  · exact h
  · exact inv_loaded h.capacity hlen
  · exact { h with
      queue := fun depth hd => by
        simpa using length_lt_of_queueFull_false hfull hd (h.queue depth hd) }
  · exact { h with }
  · exact inv_storeWord h v ha
  · exact stepTransaction_keeps stepKeepsTheInvariant h hstep

/-- Settles O43: the reset state is the one LOAD gives of the empty image at the default
configuration. -/
theorem resetMeetsTheInvariant : Obligations.ResetMeetsTheInvariant :=
  inv_loaded (c := Config.default) (image := []) (by decide) (Nat.zero_le _)

/-! ### Reset and the status port -/

/-- Settles O1: nothing is stored below the length 0, and LOAD of the empty image is never too long. -/
theorem resetIsTheEmptyLoadState : Obligations.ResetIsTheEmptyLoadState := by
  refine ⟨fun a => memRead_of_le (Nat.zero_le a), rfl, rfl, rfl, fun budget s hb hcfg => ?_⟩
  simp [command, hb, loadCommand, loaded, Memory.ofImage, hcfg, State.reset]

/-- Settles O10: the port's fields by definition, the control state by its three tests in order. -/
theorem statusPortShowsTheState : Obligations.StatusPortShowsTheState := by
  intro s
  have hfaulted : s.status.faulted = decide (s.fault ≠ none) := by
    cases hf : s.fault <;> simp [State.status, hf]
  refine ⟨rfl, rfl, rfl, hfaulted, fun r hr => by simp [State.status, hr],
    fun hf => if_pos (Option.isSome_iff_ne_none.mpr hf), fun hf hh => ?_, fun hf hh hb => ?_,
    fun hf hh hb => ?_, rfl, rfl, rfl, rfl, rfl, rfl, rfl, rfl⟩
  · simp [State.control, hf, hh]
  · simp [State.control, hf, hh, hb]
  · simp [State.control, hf, hh, hb]

/-! ### A halted or faulted core, and the memory length -/

/-- Settles O12: without LOAD, a command to a core that may not run writes the queue, the latch or
memory at most. -/
theorem onlyLoadLeavesAHaltedOrFaultedCore : Obligations.OnlyLoadLeavesAHaltedOrFaultedCore := by
  intro budget c s t r hload hstopped hc
  rcases command_next_cases hc with rfl | ⟨image, rfl, _, _⟩ | ⟨v, _, rfl⟩ | ⟨v, rfl⟩ |
    ⟨a, v, _, rfl⟩ | ⟨⟨hh, hf⟩, _⟩
  · exact ⟨rfl, rfl, rfl, rfl, rfl⟩
  · exact absurd rfl (hload image)
  · exact ⟨rfl, rfl, rfl, rfl, rfl⟩
  · exact ⟨rfl, rfl, rfl, rfl, rfl⟩
  · simp
  · simp [hh, hf] at hstopped

theorem memLen_le_of_step {s t : State} (h : step s = .next t) : s.memLen ≤ t.memLen := by
  rcases step_next_cases h with ⟨_, rfl⟩ | ⟨_, x, _, rfl⟩ | ⟨_, i, e, _, _, _, rfl⟩
  · exact le_rfl
  · exact le_rfl
  · exact memLen_le_storedBy s e

/-- Settles O40: a step and a POKE store at most, and STEP's loop is made of steps. -/
theorem memoryLengthNeverShrinks : Obligations.MemoryLengthNeverShrinks := by
  refine ⟨fun s t => memLen_le_of_step, fun budget c s t r hload hc => ?_⟩
  rcases command_next_cases hc with rfl | ⟨image, rfl, _, _⟩ | ⟨v, _, rfl⟩ | ⟨v, rfl⟩ |
    ⟨a, v, _, rfl⟩ | ⟨_, hstep⟩
  · exact le_rfl
  · exact absurd rfl (hload image)
  · exact le_rfl
  · exact le_rfl
  · simp
  · exact stepTransaction_keeps (P := fun u => s.memLen ≤ u.memLen)
      (fun u u' hu hstep => hu.trans (memLen_le_of_step hstep)) le_rfl hstep

/-! ### One writer of each register -/

/-- Settles O39: a commit changes what its effects do, and each effect has its one instruction. -/
theorem eachRegisterHasItsOneWriter : Obligations.EachRegisterHasItsOneWriter := by
  intro s t h
  rcases step_next_cases h with ⟨_, rfl⟩ | ⟨_, x, _, rfl⟩ | ⟨⟨hh, _⟩, i, e, hi, he, _, rfl⟩
  · simp
  · have hreads (a : Nat) : memRead (takeFault x s) a = memRead s a := rfl
    simp [hreads]
  · obtain ⟨hrb, hout, hhalt, -, hwrite⟩ := effectsOf_writers he
    change decode s.cfg (fetchWords s) = .ok i at hi
    simp only [hi, Except.ok.injEq]
    refine ⟨commit_cfg s e, commit_latch s e, hrb, hout, fun hne => ?_, fun hne => ?_, fun ⟨a, ha⟩ => ?_⟩
    · have hset : e.halted = true := by simpa [hh] using hne
      exact ⟨(hhalt hset).1, by simp [hset]⟩
    · obtain ⟨⟨dst, hin⟩, hq⟩ := inq_eq_cons_of_commit_ne he hne
      exact ⟨dst, hin, hq⟩
    · refine ⟨i, rfl, hwrite fun hnone => ha ?_⟩
      rw [memRead_commit, storedBy_of_write_none hnone]

/-! ### The equations of a step -/

theorem step_of_stopped {s : State} (h : s.fault.isSome = true ∨ s.halted = true) : step s = .next s := by
  rcases step_cases s with ⟨_, h'⟩ | ⟨hf, hh, _⟩
  · exact h'
  · simp [hf, hh] at h

theorem step_of_fetchDecode_error {s : State} {x : Raise} (hrun : s.Running) (h : fetchDecode s = .error x) :
    step s = .next (takeFault x s) := by
  simp [step, hrun.1, hrun.2, h]

theorem step_of_fetchDecode_ok {s : State} {i : Instr} (hrun : s.Running) (h : fetchDecode s = .ok i) :
    step s = exec i s := by
  simp [step, hrun.1, hrun.2, h]

/-! ### Noninterference of the input latch -/

/-- Only an input that finds the queue empty has effects that depend on the latch. -/
theorem effectsOf_withLatch {i : Instr} {s : State} (v : Word)
    (h : s.inq ≠ [] ∨ ∀ dst, i ≠ .input dst) : effectsOf i { s with latch := v } = effectsOf i s := by
  have hresolve : resolveInstr { s with latch := v } i = resolveInstr s i := by cases i <;> rfl
  unfold effectsOf
  rw [hresolve]
  cases i with
  | input dst =>
    obtain ⟨w, q, hq⟩ := List.exists_cons_of_ne_nil (h.resolve_right fun hn => hn dst rfl)
    simp only [resolveInstr]
    cases resolveAddr 1 dst s with
    | error x => rfl
    | ok d =>
      change inputEffects d { s with latch := v } = inputEffects d s
      simp only [inputEffects, hq]
      rfl
  | add a b dst | mul a b dst | lessThan a b dst | equals a b dst =>
    simp only [resolveInstr]
    cases resolveThree a b dst s <;> rfl
  | output a | adjustBase a =>
    simp only [resolveInstr]
    cases resolveValue 1 a s <;> rfl
  | jumpIfTrue cond target | jumpIfFalse cond target =>
    simp only [resolveInstr]
    cases resolveJump cond target s <;> rfl
  | halt => rfl

theorem storeWord_withLatch (a : Nat) (w v : Word) (s : State) :
    storeWord a w { s with latch := v } = { storeWord a w s with latch := v } := by
  unfold storeWord
  split <;> rfl

theorem commit_withLatch (s : State) (e : Effects) (v : Word) :
    commit { s with latch := v } e = { commit s e with latch := v } := by
  unfold commit
  split
  · rfl
  · rw [storeWord_withLatch]

theorem complete_withLatch {r : Except Raise Effects} {s t : State} (v : Word)
    (h : complete r s = .next t) : complete r { s with latch := v } = .next { t with latch := v } := by
  have hcheck : Effects.check { s with latch := v } = Effects.check s := rfl
  unfold complete at h ⊢
  rw [hcheck]
  cases hr : r.bind (Effects.check s) <;> rw [hr] at h <;> cases h
  · rfl
  · simp only [commit_withLatch]

/-- Settles O41: decoding, and an instruction that is no input on an empty queue, do not see the
latch. -/
theorem latchIsReadOnlyByInputOnAnEmptyQueue : Obligations.LatchIsReadOnlyByInputOnAnEmptyQueue := by
  intro s t v h hread
  have hdecode : fetchDecode { s with latch := v } = fetchDecode s := rfl
  rcases step_cases s with ⟨hs, h'⟩ | ⟨hf, hh, ⟨x, hx, h'⟩ | ⟨i, hi, h'⟩⟩ <;> have h := h'.symm.trans h
  · cases h
    exact step_of_stopped hs
  · cases h
    exact step_of_fetchDecode_error ⟨hh, hf⟩ (hdecode.trans hx)
  · have heffects : effectsOf i { s with latch := v } = effectsOf i s :=
      effectsOf_withLatch v (hread.imp_right fun hn dst hdst => hn dst (hdst ▸ hi))
    rw [exec_eq_complete] at h
    rw [step_of_fetchDecode_ok (s := { s with latch := v }) ⟨hh, hf⟩ (hdecode.trans hi), exec_eq_complete,
      heffects]
    exact complete_withLatch v h

/-! ### Noninterference of the output latch -/

/-- The effects with another output word. -/
def Effects.mapOut (f : Word → Word) (e : Effects) : Effects :=
  { e with out := f e.out }

/-- With another `out`, output latches the same word and every other instruction keeps the other
`out`. -/
theorem effects_withOut (s : State) (v : Word) (r : Resolved) :
    ∃ f, r.effects { s with out := v } = (r.effects s).map (Effects.mapOut f) := by
  have arithmetic (n : Int) {g g' : Word → Effects} (hg : ∀ w, g' w = (g w).mapOut (fun _ => v)) :
      (arith s.cfg n).map g' = ((arith s.cfg n).map g).map (Effects.mapOut fun _ => v) := by
    cases arith s.cfg n with
    | error x => rfl
    | ok w => exact congrArg Except.ok (hg w)
  have jump (taken : Bool) (target : Int) :
      jumpEffects taken target { s with out := v } =
        (jumpEffects taken target s).map (Effects.mapOut fun _ => v) := by
    unfold jumpEffects
    split_ifs <;> rfl
  cases r with
  | output x => exact ⟨id, rfl⟩
  | add x y d | mul x y d | adjustBase x => exact ⟨fun _ => v, arithmetic _ fun _ => rfl⟩
  | jumpIfTrue cond target | jumpIfFalse cond target => exact ⟨fun _ => v, jump _ target⟩
  | input d =>
    refine ⟨fun _ => v, ?_⟩
    simp only [Resolved.effects, inputEffects]
    cases s.inq <;> rfl
  | lessThan x y d | equals x y d | halt => exact ⟨fun _ => v, rfl⟩

theorem effectsOf_withOut (i : Instr) (s : State) (v : Word) :
    ∃ f, effectsOf i { s with out := v } = (effectsOf i s).map (Effects.mapOut f) := by
  have hresolve : resolveInstr { s with out := v } i = resolveInstr s i := by cases i <;> rfl
  unfold effectsOf
  rw [hresolve]
  cases resolveInstr s i with
  | error x => exact ⟨id, rfl⟩
  | ok r => exact effects_withOut s v r

theorem commit_withOut (s : State) (e : Effects) (v : Word) (f : Word → Word) :
    commit { s with out := v } (e.mapOut f) = { commit s e with out := f e.out } := by
  have hstore (a : Nat) (w : Word) :
      storeWord a w { s with out := v } = { storeWord a w s with out := v } := by
    unfold storeWord
    split <;> rfl
  unfold commit Effects.mapOut
  cases e.write with
  | none => rfl
  | some w => simp only [hstore]

theorem check_withOut (s : State) (e : Effects) (v : Word) (f : Word → Word) :
    Effects.check { s with out := v } (e.mapOut f) = (e.check s).map (Effects.mapOut f) := by
  obtain ⟨write, ip, rb, pop, out, halted, event⟩ := e
  cases write with
  | none => rfl
  | some w =>
    change (checkCapacity s w.param w.addr).map _ = ((checkCapacity s w.param w.addr).map _).map _
    cases checkCapacity s w.param w.addr <;> rfl

theorem complete_withOut {r : Except Raise Effects} {s t : State} (v : Word) (f : Word → Word)
    (h : complete r s = .next t) :
    ∃ w, complete (r.map (Effects.mapOut f)) { s with out := v } = .next { t with out := w } := by
  cases r with
  | error x =>
    cases h
    exact ⟨v, rfl⟩
  | ok e =>
    simp only [complete, Except.map, Except.bind, check_withOut] at h ⊢
    cases he : e.check s <;> rw [he] at h <;> cases h
    · exact ⟨v, rfl⟩
    · exact ⟨_, congrArg Outcome.next (commit_withOut s _ v f)⟩

/-- Settles O42: no decoding, resolution or check sees `out`, and a commit carries it. -/
theorem lastOutputReachesNoInstruction : Obligations.LastOutputReachesNoInstruction := by
  intro s t v h
  have hdecode : fetchDecode { s with out := v } = fetchDecode s := rfl
  rcases step_cases s with ⟨hs, h'⟩ | ⟨hf, hh, ⟨x, hx, h'⟩ | ⟨i, hi, h'⟩⟩ <;> have h := h'.symm.trans h
  · cases h
    exact ⟨v, step_of_stopped hs⟩
  · cases h
    exact ⟨v, step_of_fetchDecode_error ⟨hh, hf⟩ (hdecode.trans hx)⟩
  · obtain ⟨f, hmap⟩ := effectsOf_withOut i s v
    rw [exec_eq_complete] at h
    rw [step_of_fetchDecode_ok (s := { s with out := v }) ⟨hh, hf⟩ (hdecode.trans hi), exec_eq_complete,
      hmap]
    exact complete_withOut v f h

end Sys2Proof.Machine
end

section
/-!
PROOFS. The memory of 20_memory.md: a write's growth and zero-fill (R48, R51), the one memory behind
the modes and PEEK (R63), a fetch beyond the length (R52), and the two faults of an address, negative
(R50) or beyond the capacity (R48).
-/

namespace Sys2Proof.Machine

/-! ### A memory write -/

theorem registers_storeWord (a : Nat) (v : Word) (s : State) :
    (storeWord a v s).registers = s.registers := by
  simp [State.registers]

/-- The addresses a growing store adds below its own read 0 (20_memory.md R51). -/
theorem memRead_storeWord_between {s : State} {k a : Nat} (v : Word) (hlen : s.memLen ≤ a) (hk : a < k) :
    memRead (storeWord k v s) a = 0 := by
  rw [memRead_storeWord_other k a v s hk.ne, memRead_of_le hlen]

/-- Settles O13: below the capacity a write is `storeWord`, whose reads, registers and length have
their lemmas. -/
theorem memoryWriteGrowsAndZeroFills : Obligations.MemoryWriteGrowsAndZeroFills := by
  intro p k v s
  rcases memWrite_cases p k v s with ⟨hk, h⟩ | ⟨hk, h⟩
  · refine ⟨fun hle => absurd hk hle.not_gt, fun _ => ⟨storeWord k v s, h, memRead_storeWord_same k v s,
      fun a => memRead_storeWord_other k a v s, registers_storeWord k v s, fun hlt => ?_, fun hlen => ⟨?_, ?_⟩⟩⟩
    · rw [storeWord_memLen, max_eq_left hlt]
    · rw [storeWord_memLen, max_eq_right (hlen.trans k.le_succ)]
    · exact fun a => memRead_storeWord_between v
  · exact ⟨fun _ => h, fun hlt => absurd hlt hk.not_gt⟩

/-! ### One memory behind every mode -/

theorem memRead_of_memWrite_ok {p : Fin 4} {d : Nat} {v : Word} {s t : State}
    (h : memWrite p d v s = .ok t) : memRead t d = v := by
  rcases memWrite_cases p d v s with ⟨_, h'⟩ | ⟨_, h'⟩ <;> rw [h'] at h <;> cases h
  exact memRead_storeWord_same d v s

theorem resolveValue_position_of_nonneg (i : Fin 4) {raw : Word} (s : State) (h : 0 ≤ raw.toInt) :
    resolveValue i ⟨.position, raw⟩ s = .ok (memRead s raw.toInt.toNat) :=
  congrArg (Except.map (memRead s)) (checkAddress_nonneg h)

/-- A nonnegative word is the same address to a parameter, signed, and to the host, unsigned. -/
theorem toNat_toInt_of_nonneg {r : Word} (h : 0 ≤ r.toInt) : r.toInt.toNat = r.toNat :=
  BitVec.toNat_toInt_of_sle (BitVec.sle_iff_toInt_le.mpr (by simpa using h))

/-- Settles O14: the operand `r` is the effective address that `d` is, and `d` reads the stored
word. -/
theorem modesReachOneMemory : Obligations.ModesReachOneMemory := by
  intro p i o r v s t d hd hw hr
  obtain ⟨ea, hea, ⟨h0, h⟩ | ⟨_, h⟩⟩ := resolveAddr_cases p ⟨.relative, o⟩ s <;> rw [h] at hd <;> cases hd
  obtain rfl : ea = r.toInt := by simpa [hr] using hea
  have hread := memRead_of_memWrite_ok hw
  refine ⟨by rw [resolveValue_position_of_nonneg i t h0, hread], fun budget hb => ?_⟩
  rw [toNat_toInt_of_nonneg h0] at hread
  simp [command, hb, peekCommand, hread]

/-! ### A fetch beyond the length -/

/-- Beyond the length the instruction word is 0, which is no opcode. -/
theorem fetchDecode_of_memLen_le {s : State} (h : s.memLen ≤ s.ip) :
    fetchDecode s = .error ⟨.badOpcode, 0⟩ := by
  have hword : fetchWords s 0 = 0 := memRead_of_le h
  unfold fetchDecode decode
  rw [hword]
  rfl

/-- Settles O38: the decoder's raise is taken, with the word 0 that was fetched. -/
theorem fetchBeyondMemoryFaults : Obligations.FetchBeyondMemoryFaults := by
  intro s hrun h
  rw [step_of_fetchDecode_error hrun (fetchDecode_of_memLen_le h), takeFault, memRead_of_le h]

/-! ### A write beyond the capacity -/

/-- Effects whose write is at or beyond the capacity end the instruction with that fault. -/
theorem exec_of_write_beyond {i : Instr} {s : State} {e : Effects} {w : PendingWrite}
    (h : effectsOf i s = .ok e) (hw : e.write = some w) (hle : s.cfg.memCapacity ≤ w.addr) :
    exec i s = .next (s.faultedWith .capacityExceeded w.param) := by
  rw [exec_eq_complete, h]
  rcases check_cases s e with ⟨hlt, _⟩ | ⟨w', hw', _, hc⟩
  · exact absurd (hlt w hw) hle.not_gt
  · obtain rfl : w = w' := Option.some.inj (hw.symm.trans hw')
    simp only [complete, Except.bind, hc]
    rfl

section
variable {a b : ValueParam} {dst : WriteParam} {s : State} {x y : Word} {d : Nat}

theorem effectsOf_lessThan (h : resolveThree a b dst s = .ok (x, y, d)) :
    effectsOf (.lessThan a b dst) s = .ok (Effects.storing s 4 3 d (lessThanWord x y)) := by
  simp only [effectsOf, resolveInstr, h]
  rfl

theorem effectsOf_equals (h : resolveThree a b dst s = .ok (x, y, d)) :
    effectsOf (.equals a b dst) s = .ok (Effects.storing s 4 3 d (equalsWord x y)) := by
  simp only [effectsOf, resolveInstr, h]
  rfl

theorem effectsOf_input (h : resolveAddr 1 dst s = .ok d) :
    effectsOf (.input dst) s = inputEffects d s := by
  simp only [effectsOf, resolveInstr, h]
  rfl

end

/-- A result in range, or any under WRAP, gives the effects built from its word. -/
theorem arith_map_eq_ok {c : Config} {v : Int} (f : Word → Effects)
    (h : inI64 v ∨ c.overflowMode = .wrap) : (arith c v).map f = .ok (f (wrap64 v)) := by
  rw [h.elim (arith_eq_ok_of_inI64 c) (arith_eq_ok_of_wrap v)]
  rfl

/-- An input writes to the address of its parameter 1, from the queue or from the latch. -/
theorem inputEffects_write (d : Nat) (s : State) :
    ∃ e v, inputEffects d s = .ok e ∧ e.write = some ⟨d, v, 1⟩ := by
  unfold inputEffects
  split
  · exact ⟨_, _, rfl, rfl⟩
  · exact ⟨_, _, rfl, rfl⟩

/-- Settles O30: each of the five instructions has effects with a write at `d`, which the capacity
check refuses. -/
theorem storesBeyondCapacityFault : Obligations.StoresBeyondCapacityFault := by
  intro s d hle
  refine ⟨fun a b dst x y hx hy hd => ?_, fun dst hd => ?_⟩
  · have hr := resolveThree_ok_iff.mpr ⟨hx, hy, hd⟩
    exact ⟨fun hv => exec_of_write_beyond ((effectsOf_add hr).trans (arith_map_eq_ok _ hv)) rfl hle,
      fun hv => exec_of_write_beyond ((effectsOf_mul hr).trans (arith_map_eq_ok _ hv)) rfl hle,
      exec_of_write_beyond (effectsOf_lessThan hr) rfl hle,
      exec_of_write_beyond (effectsOf_equals hr) rfl hle⟩
  · obtain ⟨e, v, he, hw⟩ := inputEffects_write d s
    exact exec_of_write_beyond ((effectsOf_input hd).trans he) hw hle

/-! ### A negative effective address -/

theorem resolveValue_of_negativeEA (i : Fin 4) {p : ValueParam} {s : State}
    (h : negativeEA s p.raw p.mode) : resolveValue i p s = .error ⟨.negativeAddress, i⟩ := by
  obtain ⟨mode, raw⟩ := p
  cases mode with
  | position | relative => exact congrArg (Except.map (memRead s)) (checkAddress_neg h)
  | immediate => exact h.elim

theorem resolveValue_of_not_negativeEA (i : Fin 4) {p : ValueParam} {s : State}
    (h : ¬ negativeEA s p.raw p.mode) : ∃ x, resolveValue i p s = .ok x := by
  obtain ⟨mode, raw⟩ := p
  cases mode with
  | position | relative =>
    exact ⟨_, congrArg (Except.map (memRead s)) (checkAddress_nonneg (not_lt.mp h))⟩
  | immediate => exact ⟨raw, rfl⟩

theorem resolveAddr_of_negativeEA (i : Fin 4) {p : WriteParam} {s : State}
    (h : negativeEA s p.raw p.mode.toMode) : resolveAddr i p s = .error ⟨.negativeAddress, i⟩ := by
  obtain ⟨mode, raw⟩ := p
  cases mode with
  | position | relative => exact checkAddress_neg h

/-- A target is resolved as a value or as an address, and a negative one raises either way. -/
theorem resolveTarget_of_negativeEA {p : ValueParam} {s : State} (h : negativeEA s p.raw p.mode) :
    resolveTarget p s = .error ⟨.negativeAddress, 2⟩ := by
  unfold resolveTarget
  cases s.cfg.jumpTarget with
  | value => exact congrArg (Except.map BitVec.toInt) (resolveValue_of_negativeEA 2 h)
  | address =>
    obtain ⟨mode, raw⟩ := p
    cases mode with
    | position | relative => exact congrArg (Except.map Int.ofNat) (checkAddress_neg h)
    | immediate => exact h.elim

/-- Format F3 resolves in parameter order, so the lowest negative address raises. -/
theorem resolveThree_of_negativeEA (a b : ValueParam) (dst : WriteParam) (s : State) :
    (negativeEA s a.raw a.mode → resolveThree a b dst s = .error ⟨.negativeAddress, 1⟩) ∧
    (¬ negativeEA s a.raw a.mode → negativeEA s b.raw b.mode →
      resolveThree a b dst s = .error ⟨.negativeAddress, 2⟩) ∧
    (¬ negativeEA s a.raw a.mode → ¬ negativeEA s b.raw b.mode → negativeEA s dst.raw dst.mode.toMode →
      resolveThree a b dst s = .error ⟨.negativeAddress, 3⟩) := by
  unfold resolveThree
  refine ⟨fun ha => ?_, fun ha hb => ?_, fun ha hb hdst => ?_⟩
  · rw [resolveValue_of_negativeEA 1 ha]
    rfl
  · obtain ⟨x, hx⟩ := resolveValue_of_not_negativeEA 1 ha
    rw [hx, resolveValue_of_negativeEA 2 hb]
    rfl
  · obtain ⟨x, hx⟩ := resolveValue_of_not_negativeEA 1 ha
    obtain ⟨y, hy⟩ := resolveValue_of_not_negativeEA 2 hb
    rw [hx, hy, resolveAddr_of_negativeEA 3 hdst]
    rfl

/-- Format F2 resolves both parameters in order, whether or not the jump is taken (43_jumps.md
R114). -/
theorem resolveJump_of_negativeEA {cond target : ValueParam} {s : State}
    (hlegal : target.legalTarget s.cfg = true) :
    (negativeEA s cond.raw cond.mode → resolveJump cond target s = .error ⟨.negativeAddress, 1⟩) ∧
    (¬ negativeEA s cond.raw cond.mode → negativeEA s target.raw target.mode →
      resolveJump cond target s = .error ⟨.negativeAddress, 2⟩) := by
  unfold resolveJump
  rw [if_pos hlegal]
  refine ⟨fun hc => ?_, fun hc ht => ?_⟩
  · rw [resolveValue_of_negativeEA 1 hc]
    rfl
  · obtain ⟨x, hx⟩ := resolveValue_of_not_negativeEA 1 hc
    rw [hx, resolveTarget_of_negativeEA ht]
    rfl

/-- A raise at RESOLVE ends the instruction with that fault, before any of its effects. -/
theorem exec_of_resolveInstr_error {i : Instr} {s : State} {x : Raise} (h : resolveInstr s i = .error x) :
    exec i s = .next (s.faultedWith x.code x.param) := by
  refine exec_of_effectsOf_error ?_
  rw [effectsOf, h]
  rfl

/-- The raise of format F3 is that of each of its four instructions. -/
theorem exec_of_resolveThree_error {a b : ValueParam} {dst : WriteParam} {s : State} {x : Raise} {i : Instr}
    (hi : i ∈ [Instr.add a b dst, .mul a b dst, .lessThan a b dst, .equals a b dst])
    (h : resolveThree a b dst s = .error x) : exec i s = .next (s.faultedWith x.code x.param) := by
  refine exec_of_resolveInstr_error ?_
  simp only [List.mem_cons, List.not_mem_nil, or_false] at hi
  rcases hi with rfl | rfl | rfl | rfl <;> (rw [resolveInstr, h]; rfl)

/-- The raise of format F2 is that of both jumps. -/
theorem exec_of_resolveJump_error {cond target : ValueParam} {s : State} {x : Raise} {i : Instr}
    (hi : i ∈ [Instr.jumpIfTrue cond target, .jumpIfFalse cond target])
    (h : resolveJump cond target s = .error x) : exec i s = .next (s.faultedWith x.code x.param) := by
  refine exec_of_resolveInstr_error ?_
  simp only [List.mem_cons, List.not_mem_nil, or_false] at hi
  rcases hi with rfl | rfl <;> (rw [resolveInstr, h]; rfl)

/-- Settles O31: each format raises at its lowest negative address, and RESOLVE's raise is the
instruction's fault. -/
theorem negativeAddressFaultsLowestParameterFirst :
    Obligations.NegativeAddressFaultsLowestParameterFirst := by
  intro s
  refine ⟨fun a b dst i hi => ?_, fun dst h => ?_, fun a h => ?_, fun cond target hlegal i hi => ?_⟩
  · obtain ⟨h1, h2, h3⟩ := resolveThree_of_negativeEA a b dst s
    exact ⟨fun ha => exec_of_resolveThree_error hi (h1 ha),
      fun ha hb => exec_of_resolveThree_error hi (h2 ha hb),
      fun ha hb hdst => exec_of_resolveThree_error hi (h3 ha hb hdst)⟩
  · refine exec_of_resolveInstr_error (x := ⟨.negativeAddress, 1⟩) ?_
    rw [resolveInstr, resolveAddr_of_negativeEA 1 h]
    rfl
  · refine ⟨exec_of_resolveInstr_error (x := ⟨.negativeAddress, 1⟩) ?_,
      exec_of_resolveInstr_error (x := ⟨.negativeAddress, 1⟩) ?_⟩ <;>
      (rw [resolveInstr, resolveValue_of_negativeEA 1 h]; rfl)
  · obtain ⟨h1, h2⟩ := resolveJump_of_negativeEA hlegal
    exact ⟨fun hc => exec_of_resolveJump_error hi (h1 hc),
      fun hc ht => exec_of_resolveJump_error hi (h2 hc ht)⟩

end Sys2Proof.Machine
end

section
/-!
PROOFS. The encoding of 30_encoding.md: how parameters resolve (R75 to R78), what the decoder reads of
its words (R65 to R74), the order of its checks (R85), the legal words (R81) and the
pseudo-instructions (R88).
-/

namespace Sys2Proof.Machine

/-! ### The encoder: an opcode, mode digits and raw operands -/

/-- The first word of an instruction has the opcode below the mode digits of its parameters, and the
raw operands follow (30_encoding.md R65, R73). -/
theorem encode_eq_cons (i : Instr) : ∃ word : Word, encode i = word :: (paramsOf i).map Prod.snd ∧
    word.toNat = i.opcode + 100 * Nat.ofDigits 10 ((paramsOf i).map Prod.fst) := by
  cases i with
  | add a b dst | mul a b dst | lessThan a b dst | equals a b dst =>
    refine ⟨_, rfl, (encodeWord_toNat (by decide) a.mode.toDigit_le b.mode.toDigit_le
      dst.mode.toDigit_le).trans ?_⟩
    simp only [Instr.opcode, paramsOf, List.map_cons, List.map_nil, Nat.ofDigits_cons, Nat.ofDigits_nil]
    ring
  | input dst =>
    exact ⟨_, rfl, encodeWord_toNat (by decide) dst.mode.toDigit_le (Nat.zero_le 2) (Nat.zero_le 2)⟩
  | output a | adjustBase a =>
    exact ⟨_, rfl, encodeWord_toNat (by decide) a.mode.toDigit_le (Nat.zero_le 2) (Nat.zero_le 2)⟩
  | jumpIfTrue cond target | jumpIfFalse cond target =>
    refine ⟨_, rfl, (encodeWord_toNat (by decide) cond.mode.toDigit_le target.mode.toDigit_le
      (Nat.zero_le 2)).trans ?_⟩
    simp only [Instr.opcode, paramsOf, List.map_cons, List.map_nil, Nat.ofDigits_cons, Nat.ofDigits_nil]
    ring
  | halt => exact ⟨_, rfl, rfl⟩

/-- The digits from 2 on, read as a number, are the word without its opcode, cut to as many digits. -/
theorem ofDigits_map_digit (w n : Nat) :
    Nat.ofDigits 10 ((List.range n).map fun k => digit w (k + 2)) = w / 100 % 10 ^ n := by
  induction n with
  | zero => simp [Nat.mod_one]
  | succ n ih =>
    have hdigit : digit w (n + 2) = w / 100 / 10 ^ n % 10 := by
      rw [digit, Nat.div_div_eq_div_mul, Nat.pow_add, Nat.mul_comm]
    rw [List.range_succ, List.map_append, Nat.ofDigits_append, ih, Nat.mod_pow_succ]
    simp [hdigit]

/-! ### The dispatch on the opcode -/

/-- The decoder's dispatch, on an opcode that need not be the word's own. -/
def decodeOpcode (c : Config) (w : Nat) : Nat → Except Raise Header
  | 1 => decodeF3 c w .add
  | 2 => decodeF3 c w .mul
  | 3 => decodeF1Write c w .input
  | 4 => decodeF1Value c w .output
  | 5 => decodeF2 c w .jumpIfTrue
  | 6 => decodeF2 c w .jumpIfFalse
  | 7 => decodeF3 c w .lessThan
  | 8 => decodeF3 c w .equals
  | 9 => decodeF1Value c w .adjustBase
  | 99 => decodeF0 c w .halt
  | _ => .error ⟨.badOpcode, 0⟩

theorem decodeWord_of_neg (c : Config) {word : Word} (h : word.toInt < 0) :
    decodeWord c word = .error ⟨.badOpcode, 0⟩ :=
  if_pos h

theorem decodeWord_of_nonneg (c : Config) {word : Word} (h : 0 ≤ word.toInt) :
    decodeWord c word = decodeOpcode c word.toNat (word.toNat % 100) :=
  if_neg (not_lt.mpr h)

/-! ### Decoding what the encoder wrote -/

theorem valueMode_of_digit {w : Nat} {i : Fin 4} {m : Mode} (h : digit w (i.val + 1) = m.toDigit) :
    valueMode w i = .ok m := by
  simp [valueMode, h]

theorem writeMode_of_digit {w : Nat} {i : Fin 4} {m : WriteMode} (h : digit w (i.val + 1) = m.toDigit) :
    writeMode w i = .ok m := by
  unfold writeMode
  rw [h]
  cases m <;> rfl

theorem checkExcess_eq_ok {c : Config} {w n : Nat}
    (h : c.excessDigitMode = .ignore ∨ w / 100 / 10 ^ n = 0) : checkExcess c w n = .ok () := by
  rcases h with h | h <;> simp [checkExcess, h]

theorem legalTarget_iff {c : Config} {p : ValueParam} :
    p.legalTarget c = true ↔ (c.jumpTarget = .address → p.mode ≠ .immediate) := by
  cases hj : c.jumpTarget <;> simp [ValueParam.legalTarget, hj]

theorem exists_toMode_eq {m : Mode} (h : m ≠ .immediate) : ∃ wm : WriteMode, wm.toMode = m := by
  cases m with
  | position => exact ⟨.position, rfl⟩
  | immediate => exact absurd rfl h
  | relative => exact ⟨.relative, rfl⟩

/-- A legal target's mode is read as a value's or as an address's, whichever `JUMP_TARGET` asks. -/
theorem targetMode_of_digit {c : Config} {w : Nat} {p : ValueParam} (h : digit w 3 = p.mode.toDigit)
    (hlegal : p.legalTarget c = true) : targetMode c w = .ok p.mode := by
  unfold targetMode
  cases hj : c.jumpTarget with
  | value => exact valueMode_of_digit h
  | address =>
    obtain ⟨wm, hwm⟩ := exists_toMode_eq (legalTarget_iff.mp hlegal hj)
    rw [← hwm, toMode_toDigit] at h
    rw [← hwm]
    exact congrArg (Except.map WriteMode.toMode) (writeMode_of_digit (i := 2) h)

theorem decodeF0_of_eq_zero (c : Config) {w : Nat} (hw : w / 100 / 10 ^ 0 = 0) (h : Header) :
    decodeF0 c w h = .ok h := by
  rw [decodeF0, checkExcess_eq_ok (.inr hw)]
  rfl

section
variable {o m1 m2 m3 : Nat} (ho : o < 100) (h1 : m1 ≤ 2) (h2 : m2 ≤ 2) (h3 : m3 ≤ 2)
include ho h1 h2 h3

/-- The decoder takes an encoded word apart into the encoder's fields. -/
theorem encodeWord_fields :
    digit (encodeWord o m1 m2 m3).toNat 2 = m1 ∧ digit (encodeWord o m1 m2 m3).toNat 3 = m2 ∧
      digit (encodeWord o m1 m2 m3).toNat 4 = m3 ∧
      (encodeWord o m1 m2 m3).toNat / 100 = m1 + 10 * m2 + 100 * m3 := by
  rw [encodeWord_toNat ho h1 h2 h3]
  obtain ⟨_, hd2, hd3, hd4⟩ := digits_encode ho h1 h2 h3
  exact ⟨hd2, hd3, hd4, by omega⟩

theorem decodeWord_encodeWord (c : Config) :
    decodeWord c (encodeWord o m1 m2 m3) = decodeOpcode c (encodeWord o m1 m2 m3).toNat o := by
  have hlt : (encodeWord o m1 m2 m3).toNat < 2 ^ 63 := by
    rw [encodeWord_toNat ho h1 h2 h3]
    omega
  rw [decodeWord_of_nonneg c ((toInt_nonneg_iff _).mpr hlt), encodeWord_mod ho h1 h2 h3]

end

section
variable {o : Nat} (ho : o < 100) (c : Config)
include ho

theorem decodeF3_encodeWord (a b : Mode) (d : WriteMode) (mk : Mode → Mode → WriteMode → Header) :
    decodeF3 c (encodeWord o a.toDigit b.toDigit d.toDigit).toNat mk = .ok (mk a b d) := by
  have ha := a.toDigit_le
  have hb := b.toDigit_le
  have hd := d.toDigit_le
  obtain ⟨hd2, hd3, hd4, hrest⟩ := encodeWord_fields ho ha hb hd
  rw [decodeF3, valueMode_of_digit hd2, valueMode_of_digit hd3, writeMode_of_digit hd4,
    checkExcess_eq_ok (c := c) (n := 3) (.inr (by omega))]
  rfl

theorem decodeF2_encodeWord (a : Mode) {p : ValueParam} (hlegal : p.legalTarget c = true)
    (mk : Mode → Mode → Header) :
    decodeF2 c (encodeWord o a.toDigit p.mode.toDigit 0).toNat mk = .ok (mk a p.mode) := by
  have ha := a.toDigit_le
  have hp := p.mode.toDigit_le
  obtain ⟨hd2, hd3, -, hrest⟩ := encodeWord_fields ho ha hp (Nat.zero_le 2)
  rw [decodeF2, valueMode_of_digit hd2, targetMode_of_digit hd3 hlegal,
    checkExcess_eq_ok (c := c) (n := 2) (.inr (by omega))]
  rfl

theorem decodeF1Value_encodeWord (a : Mode) (mk : Mode → Header) :
    decodeF1Value c (encodeWord o a.toDigit 0 0).toNat mk = .ok (mk a) := by
  have ha := a.toDigit_le
  obtain ⟨hd2, -, -, hrest⟩ := encodeWord_fields ho ha (Nat.zero_le 2) (Nat.zero_le 2)
  rw [decodeF1Value, valueMode_of_digit hd2, checkExcess_eq_ok (c := c) (n := 1) (.inr (by omega))]
  rfl

theorem decodeF1Write_encodeWord (d : WriteMode) (mk : WriteMode → Header) :
    decodeF1Write c (encodeWord o d.toDigit 0 0).toNat mk = .ok (mk d) := by
  have hd := d.toDigit_le
  obtain ⟨hd2, -, -, hrest⟩ := encodeWord_fields ho hd (Nat.zero_le 2) (Nat.zero_le 2)
  rw [decodeF1Write, writeMode_of_digit hd2, checkExcess_eq_ok (c := c) (n := 1) (.inr (by omega))]
  rfl

end

theorem decode_eq_ok {c : Config} {words : Nat → Word} {h : Header} (hw : decodeWord c (words 0) = .ok h) :
    decode c words = .ok (h.withOperands words) := by
  rw [decode, hw]
  rfl

theorem decode_eq_error {c : Config} {words : Nat → Word} {x : Raise}
    (hw : decodeWord c (words 0) = .error x) : decode c words = .error x := by
  rw [decode, hw]
  rfl

/-- A stream whose first word is an encoded one decodes to what the dispatch reads of that word, with the
operands. -/
theorem decode_of_decodeOpcode {c : Config} {words : Nat → Word} {o m1 m2 m3 : Nat} {h : Header} {i : Instr}
    (hword : words 0 = encodeWord o m1 m2 m3) (ho : o < 100) (h1 : m1 ≤ 2) (h2 : m2 ≤ 2) (h3 : m3 ≤ 2)
    (hd : decodeOpcode c (encodeWord o m1 m2 m3).toNat o = .ok h) (hi : h.withOperands words = i) :
    decode c words = .ok i := by
  rw [← hi]
  exact decode_eq_ok (by rw [hword, decodeWord_encodeWord ho h1 h2 h3, hd])

/-- Settles O51: the dispatch takes the encoded opcode, and each format reads its encoded modes. -/
theorem decodeReadsBackEveryInstruction : Obligations.DecodeReadsBackEveryInstruction := by
  intro c i rest hwf
  cases i with
  | add a b dst | mul a b dst | lessThan a b dst | equals a b dst =>
    exact decode_of_decodeOpcode rfl (by decide) a.mode.toDigit_le b.mode.toDigit_le
      dst.mode.toDigit_le (decodeF3_encodeWord (by decide) c _ _ _ _) rfl
  | input dst =>
    exact decode_of_decodeOpcode rfl (by decide) dst.mode.toDigit_le (Nat.zero_le 2) (Nat.zero_le 2)
      (decodeF1Write_encodeWord (by decide) c _ _) rfl
  | output a | adjustBase a =>
    exact decode_of_decodeOpcode rfl (by decide) a.mode.toDigit_le (Nat.zero_le 2) (Nat.zero_le 2)
      (decodeF1Value_encodeWord (by decide) c _ _) rfl
  | jumpIfTrue cond target | jumpIfFalse cond target =>
    exact decode_of_decodeOpcode rfl (by decide) cond.mode.toDigit_le target.mode.toDigit_le
      (Nat.zero_le 2) (decodeF2_encodeWord (by decide) c _ hwf _) rfl
  | halt =>
    exact decode_of_decodeOpcode rfl (by decide) (Nat.zero_le 2) (Nat.zero_le 2) (Nat.zero_le 2)
      (decodeF0_of_eq_zero c rfl _) rfl

/-! ### What decodes was read from its words -/

/-- `i`, of `n` parameters, is what the digits of the first word and the `n` words after it say. -/
structure ReadFrom (c : Config) (words : Nat → Word) (n : Nat) (i : Instr) : Prop where
  wellFormed : i.wellFormed c = true
  opcode : i.opcode = (words 0).toNat % 100
  width : i.width = n + 1
  params : paramsOf i = (List.range n).map fun k => (digit (words 0).toNat (k + 2), words (k + 1))
  excess : c.excessDigitMode = .fault → (words 0).toNat / 100 / 10 ^ n = 0

theorem readFrom_of_decodeOpcode {c : Config} {words : Nat → Word} {op : Nat} {h : Header}
    (hop : op = (words 0).toNat % 100) (hd : decodeOpcode c (words 0).toNat op = .ok h) :
    ∃ n, ReadFrom c words n (h.withOperands words) := by
  unfold decodeOpcode at hd
  split at hd
  case h_1 | h_2 | h_7 | h_8 =>
    obtain ⟨a, b, d, rfl, h2, h3, h4, hx⟩ := decodeF3_ok hd
    exact ⟨3, rfl, hop, rfl, by simp [Header.withOperands, paramsOf, List.range_succ, h2, h3, h4], hx⟩
  case h_3 =>
    obtain ⟨d, rfl, h2, hx⟩ := decodeF1Write_ok hd
    exact ⟨1, rfl, hop, rfl, by simp [Header.withOperands, paramsOf, h2], hx⟩
  case h_4 | h_9 =>
    obtain ⟨a, rfl, h2, hx⟩ := decodeF1Value_ok hd
    exact ⟨1, rfl, hop, rfl, by simp [Header.withOperands, paramsOf, h2], hx⟩
  case h_5 | h_6 =>
    obtain ⟨a, t, rfl, h2, h3, ht, hx⟩ := decodeF2_ok hd
    exact ⟨2, legalTarget_iff.mpr ht, hop, rfl,
      by simp [Header.withOperands, paramsOf, List.range_succ, h2, h3], hx⟩
  case h_10 =>
    obtain ⟨rfl, hx⟩ := decodeF0_ok hd
    exact ⟨0, rfl, hop, rfl, rfl, hx⟩
  case h_11 => cases hd

theorem exists_decodeWord_ok {c : Config} {words : Nat → Word} {i : Instr} (h : decode c words = .ok i) :
    ∃ hd, decodeWord c (words 0) = .ok hd ∧ hd.withOperands words = i := by
  unfold decode at h
  cases hw : decodeWord c (words 0) with
  | error x => rw [hw] at h; cases h
  | ok hd => rw [hw] at h; exact ⟨hd, rfl, Except.ok.inj h⟩

theorem readFrom_of_decode {c : Config} {words : Nat → Word} {i : Instr} (h : decode c words = .ok i) :
    ∃ n, ReadFrom c words n i := by
  obtain ⟨hd, hw, rfl⟩ := exists_decodeWord_ok h
  rcases lt_or_ge (words 0).toInt 0 with hneg | hpos
  · rw [decodeWord_of_neg c hneg] at hw
    cases hw
  · rw [decodeWord_of_nonneg c hpos] at hw
    exact readFrom_of_decodeOpcode rfl hw

/-- The encoding's first word has the digits below those of excess, and the operands follow. -/
theorem ReadFrom.encode_eq {c : Config} {words : Nat → Word} {n : Nat} {i : Instr}
    (h : ReadFrom c words n i) :
    ∃ word : Word, encode i = word :: (List.range n).map (fun k => words (k + 1)) ∧
      word.toNat = (words 0).toNat % 10 ^ (n + 2) := by
  obtain ⟨word, hencode, hword⟩ := encode_eq_cons i
  refine ⟨word, by rw [hencode, h.params, List.map_map]; rfl, ?_⟩
  calc word.toNat
    _ = (words 0).toNat % 100 + 100 * ((words 0).toNat / 100 % 10 ^ n) := by
      rw [hword, h.opcode, h.params, List.map_map, ← ofDigits_map_digit]
      rfl
    _ = (words 0).toNat % 10 ^ (n + 2) := by
      rw [← Nat.mod_mul, Nat.pow_add, Nat.mul_comm]

/-- Settles O52: `i` is read from the words, so its encoding gives them back, but for excess digits. -/
theorem decodedInstructionsReencode : Obligations.DecodedInstructionsReencode := by
  intro c words i hd
  obtain ⟨n, h⟩ := readFrom_of_decode hd
  obtain ⟨word, hencode, hword⟩ := h.encode_eq
  rw [hencode, h.width]
  refine ⟨h.wellFormed, fun k hk hkn => ?_, hword, fun hmode => ?_⟩
  · obtain ⟨k, rfl⟩ := Nat.exists_eq_add_of_le' hk
    simp [streamOf, show k < n by omega]
  · have hlt : (words 0).toNat < 10 ^ (n + 2) := by
      rw [Nat.pow_add, Nat.mul_comm]
      have hx := h.excess hmode
      rw [Nat.div_div_eq_div_mul] at hx
      exact Nat.lt_of_div_eq_zero (by positivity) hx
    exact BitVec.eq_of_toNat_eq (hword.trans (Nat.mod_eq_of_lt hlt))

/-! ### The checks in their order -/

/-- Whether an operation of the decoder passes, and its raise if not, whatever it answers. -/
def checksOf {α : Type} (x : Except Raise α) : Except Raise Unit :=
  x.map fun _ => ()

section
variable {α β : Type} {x : Except Raise α}

theorem eq_error_of_checksOf {y : Raise} (h : checksOf x = .error y) : x = .error y := by
  cases x <;> cases h
  rfl

theorem exists_eq_ok_of_checksOf (h : checksOf x = .ok ()) : ∃ a, x = .ok a := by
  cases x with
  | error y => cases h
  | ok a => exact ⟨a, rfl⟩

theorem checksOf_bind {f : α → Except Raise β} {y z : Except Raise Unit} (hx : checksOf x = y)
    (hf : ∀ a, checksOf (f a) = z) : checksOf (x >>= f) = y >>= fun _ => z := by
  subst hx
  cases x with
  | error y => rfl
  | ok a => exact hf a

theorem checksOf_bind_pure (x : Except Raise Unit) (b : β) : checksOf (x >>= fun _ => pure b) = x := by
  cases x <;> rfl

end

/-- The checks of parameter `i` with role `r`: its mode digit, then that a write is not immediate
(30_encoding.md R69, R70). -/
def paramCheck (w i : Nat) (r : Role) : Except Raise Unit :=
  if 2 < digit w (i + 1) then .error ⟨.badMode, Fin.ofNat 4 i⟩
  else if r = .write ∧ digit w (i + 1) = 1 then .error ⟨.immediateWrite, Fin.ofNat 4 i⟩
  else .ok ()

/-- The checks of the parameters after the first `n`, in index order, then of the excess digits
(30_encoding.md R85). -/
def checksFrom (c : Config) (w : Nat) : Nat → List Role → Except Raise Unit
  | n, [] => checkExcess c w n
  | n, r :: roles => paramCheck w (n + 1) r >>= fun _ => checksFrom c w (n + 1) roles

theorem paramCheck_of_passes {w i : Nat} {r : Role} (h : paramPasses w i r = true) :
    paramCheck w i r = .ok () := by
  simp only [paramPasses, Bool.and_eq_true, Bool.not_eq_true', decide_eq_true_eq, Bool.and_eq_false_imp,
    decide_eq_false_iff_not] at h
  obtain ⟨hle, hwrite⟩ := h
  rw [paramCheck, if_neg hle.not_gt, if_neg fun ⟨hr, hd⟩ => hwrite hr hd]

theorem valueMode_checks (w : Nat) (i : Fin 4) :
    checksOf (valueMode w i) = paramCheck w i.val .value := by
  unfold valueMode paramCheck
  match digit w (i.val + 1) with
  | 0 | 1 | 2 => rfl
  | d + 3 => simp [Mode.ofDigit, checksOf, Except.map]

theorem writeMode_checks (w : Nat) (i : Fin 4) :
    checksOf (writeMode w i) = paramCheck w i.val .write := by
  unfold writeMode paramCheck
  match digit w (i.val + 1) with
  | 0 | 2 => rfl
  | 1 | d + 3 => simp [Mode.ofDigit, checksOf, Except.map]

theorem targetMode_checks (c : Config) (w : Nat) :
    checksOf (targetMode c w) = paramCheck w 2 (if c.jumpTarget = .value then .value else .write) := by
  unfold targetMode
  cases c.jumpTarget with
  | value => exact valueMode_checks w 2
  | address =>
    refine Eq.trans ?_ (writeMode_checks w 2)
    cases writeMode w 2 <;> rfl

/-- On an opcode, the decoder makes the checks of its parameters' roles and then of the excess digits. -/
theorem decodeOpcode_checks {c : Config} (w : Nat) {op : Nat} {roles : List Role}
    (h : rolesOf c.jumpTarget op = some roles) :
    checksOf (decodeOpcode c w op) = checksFrom c w 0 roles := by
  unfold rolesOf at h
  split at h <;> cases h
  case h_1 | h_2 | h_7 | h_8 =>
    exact checksOf_bind (valueMode_checks w 1) fun _ => checksOf_bind (valueMode_checks w 2) fun _ =>
      checksOf_bind (writeMode_checks w 3) fun _ => checksOf_bind_pure _ _
  case h_3 => exact checksOf_bind (writeMode_checks w 1) fun _ => checksOf_bind_pure _ _
  case h_4 | h_9 => exact checksOf_bind (valueMode_checks w 1) fun _ => checksOf_bind_pure _ _
  case h_5 | h_6 =>
    exact checksOf_bind (valueMode_checks w 1) fun _ => checksOf_bind (targetMode_checks c w) fun _ =>
      checksOf_bind_pure _ _
  case h_10 => exact checksOf_bind_pure _ _

theorem decodeOpcode_of_rolesOf_none {c : Config} (w : Nat) {op : Nat}
    (h : rolesOf c.jumpTarget op = none) : decodeOpcode c w op = .error ⟨.badOpcode, 0⟩ := by
  unfold decodeOpcode
  split
  case h_11 => rfl
  all_goals cases h

/-- The checks raise at the first parameter that fails. -/
theorem checksFrom_of_first_failing (c : Config) {w n k : Nat} {roles : List Role} {r : Role} {x : Raise}
    (hr : roles[k]? = some r)
    (hbefore : ∀ j q, j < k → roles[j]? = some q → paramPasses w (n + j + 1) q = true)
    (hx : paramCheck w (n + k + 1) r = .error x) : checksFrom c w n roles = .error x := by
  induction roles generalizing n k with
  | nil => cases hr
  | cons q roles ih =>
    cases k with
    | zero =>
      cases hr
      rw [checksFrom, hx]
      rfl
    | succ k =>
      rw [checksFrom, paramCheck_of_passes (hbefore 0 q k.succ_pos rfl)]
      refine ih hr (fun j q hj hq => ?_) ?_
      · rw [Nat.add_right_comm n 1 j]
        exact hbefore (j + 1) q (Nat.succ_lt_succ hj) hq
      · rwa [Nat.add_right_comm n 1 k]

/-- When every parameter passes, the check of the excess digits is left. -/
theorem checksFrom_of_all_pass (c : Config) {w n : Nat} {roles : List Role}
    (h : ∀ j q, roles[j]? = some q → paramPasses w (n + j + 1) q = true) :
    checksFrom c w n roles = checkExcess c w (n + roles.length) := by
  induction roles generalizing n with
  | nil => rfl
  | cons q roles ih =>
    rw [checksFrom, paramCheck_of_passes (h 0 q rfl), List.length_cons, ← Nat.add_assoc,
      Nat.add_right_comm]
    refine ih fun j q hq => ?_
    rw [Nat.add_right_comm n 1 j]
    exact h (j + 1) q hq

theorem width_of_rolesOf_opcode {jumpTarget : JumpTarget} {i : Instr} {roles : List Role}
    (h : rolesOf jumpTarget i.opcode = some roles) : i.width = roles.length + 1 := by
  cases i <;> cases h <;> rfl

theorem decodeWord_checks {c : Config} {word : Word} {roles : List Role} (hpos : 0 ≤ word.toInt)
    (hroles : rolesOf c.jumpTarget (word.toNat % 100) = some roles) :
    checksOf (decodeWord c word) = checksFrom c word.toNat 0 roles := by
  rw [decodeWord_of_nonneg c hpos]
  exact decodeOpcode_checks word.toNat hroles

section
variable {c : Config} {words : Nat → Word} {roles : List Role} (hpos : 0 ≤ (words 0).toInt)
  (hroles : rolesOf c.jumpTarget ((words 0).toNat % 100) = some roles)
include hpos hroles

/-- The lowest parameter that fails is the one the decoder raises for. -/
theorem decode_of_first_failing {i : Nat} {r : Role} {x : Raise} (hi : 1 ≤ i)
    (hr : roles[i - 1]? = some r)
    (hbefore : ∀ j q, 1 ≤ j → j < i → roles[j - 1]? = some q → paramPasses (words 0).toNat j q = true)
    (hx : paramCheck (words 0).toNat i r = .error x) : decode c words = .error x := by
  obtain ⟨k, rfl⟩ := Nat.exists_eq_add_of_le' hi
  refine decode_eq_error (eq_error_of_checksOf ((decodeWord_checks hpos hroles).trans ?_))
  refine checksFrom_of_first_failing c hr (fun j q hj hq => ?_) (by rwa [Nat.zero_add])
  rw [Nat.zero_add]
  exact hbefore (j + 1) q (Nat.le_add_left 1 j) (Nat.succ_lt_succ hj) hq

theorem decodeWord_of_all_pass
    (hpass : ∀ j q, 1 ≤ j → roles[j - 1]? = some q → paramPasses (words 0).toNat j q = true) :
    checksOf (decodeWord c (words 0)) = checkExcess c (words 0).toNat roles.length := by
  rw [decodeWord_checks hpos hroles, checksFrom_of_all_pass c fun j q hq => ?_, Nat.zero_add]
  rw [Nat.zero_add]
  exact hpass (j + 1) q (Nat.le_add_left 1 j) hq

end

/-- Settles O53: the decoder makes the checks of `checksFrom`, and what it then answers is read from its
words. -/
theorem decodeChecksInOrder : Obligations.DecodeChecksInOrder := by
  intro c words
  refine ⟨fun hneg => decode_eq_error (decodeWord_of_neg c hneg), fun hpos w hw => ?_⟩
  rw [toNat_toInt_of_nonneg hpos] at hw
  subst hw
  refine ⟨fun hnone => decode_eq_error ?_, fun roles hroles =>
    ⟨fun i r hi hr hbefore => ⟨fun hd => ?_, fun hwrite hd => ?_⟩,
      fun hpass => ⟨fun hmode hne => ?_, fun hok => ?_⟩⟩⟩
  · exact (decodeWord_of_nonneg c hpos).trans (decodeOpcode_of_rolesOf_none _ hnone)
  · exact decode_of_first_failing hpos hroles hi hr hbefore (by simp [paramCheck, hd])
  · exact decode_of_first_failing hpos hroles hi hr hbefore (by simp [paramCheck, hd, hwrite])
  · have hexcess : checkExcess c (words 0).toNat roles.length = .error ⟨.excessModeDigits, 0⟩ :=
      if_pos ⟨hmode, hne⟩
    exact decode_eq_error (eq_error_of_checksOf ((decodeWord_of_all_pass hpos hroles hpass).trans hexcess))
  · obtain ⟨h, hh⟩ := exists_eq_ok_of_checksOf
      ((decodeWord_of_all_pass hpos hroles hpass).trans (checkExcess_eq_ok hok))
    have hi := decode_eq_ok hh
    obtain ⟨n, hread⟩ := readFrom_of_decode hi
    have hwidth := width_of_rolesOf_opcode (hread.opcode ▸ hroles)
    obtain rfl : n = roles.length := Nat.succ.inj (hread.width.symm.trans hwidth)
    exact ⟨_, hi, hread.opcode, hwidth, hread.params⟩

/-! ### The legal words -/

/-- The legal instruction words under a setting of `JUMP_TARGET` (30_encoding.md R81). -/
def legalWords : JumpTarget → List Nat
  | .value => legalWordsDefault
  | .address => legalWordsAddress

/-- The mode digits a parameter of each role may have (30_encoding.md R68, R70). -/
def roleDigits : Role → List Nat
  | .value => [0, 1, 2]
  | .write => [0, 2]

/-- Every choice of legal mode digits for the parameters of an opcode. -/
def digitChoices (t : JumpTarget) (op : Nat) : List (List Nat) :=
  (((rolesOf t op).getD []).map roleDigits).sections

theorem mode_toDigit_mem (m : Mode) : m.toDigit ∈ roleDigits .value := by
  cases m <;> decide

theorem writeMode_toDigit_mem (m : WriteMode) : m.toDigit ∈ roleDigits .write := by
  cases m <;> decide

theorem toDigit_mem_of_legalTarget {c : Config} {p : ValueParam} (h : p.legalTarget c = true) :
    p.mode.toDigit ∈ roleDigits (if c.jumpTarget = .value then .value else .write) := by
  cases hj : c.jumpTarget with
  | value => exact mode_toDigit_mem p.mode
  | address =>
    obtain ⟨wm, hwm⟩ := exists_toMode_eq (legalTarget_iff.mp h hj)
    rw [← hwm, toMode_toDigit]
    exact writeMode_toDigit_mem wm

theorem digits_mem_digitChoices {c : Config} {i : Instr} (hwf : i.wellFormed c = true) :
    (paramsOf i).map Prod.fst ∈ digitChoices c.jumpTarget i.opcode := by
  refine List.mem_sections.mpr ?_
  cases i with
  | add a b dst | mul a b dst | lessThan a b dst | equals a b dst =>
    exact .cons (mode_toDigit_mem _) (.cons (mode_toDigit_mem _) (.cons (writeMode_toDigit_mem _) .nil))
  | input dst => exact .cons (writeMode_toDigit_mem _) .nil
  | output a | adjustBase a => exact .cons (mode_toDigit_mem _) .nil
  | jumpIfTrue cond target | jumpIfFalse cond target =>
    exact .cons (mode_toDigit_mem _) (.cons (toDigit_mem_of_legalTarget hwf) .nil)
  | halt => exact .nil

theorem opcode_mem (i : Instr) : i.opcode ∈ [1, 2, 3, 4, 5, 6, 7, 8, 9, 99] := by
  cases i <;> simp [Instr.opcode]

/-- The tables list every choice of an opcode and legal mode digits. -/
theorem mem_legalWords_of_digitChoices (t : JumpTarget) : ∀ op ∈ [1, 2, 3, 4, 5, 6, 7, 8, 9, 99],
    ∀ digits ∈ digitChoices t op, op + 100 * Nat.ofDigits 10 digits ∈ legalWords t := by
  cases t <;> decide

/-- The configuration the opcode table lists its words for, under a setting of `JUMP_TARGET`. -/
def tableConfig (t : JumpTarget) : Config :=
  { Config.default with jumpTarget := t }

/-- Besides `EXCESS_DIGIT_MODE` only `JUMP_TARGET` reaches the decoder. -/
theorem decodeWord_eq_tableConfig {c : Config} (hmode : c.excessDigitMode = .fault) (word : Word) :
    decodeWord c word = decodeWord (tableConfig c.jumpTarget) word := by
  obtain ⟨_, _, _, _, _, _⟩ := c
  cases hmode
  rfl

theorem decodeWord_legalWords (t : JumpTarget) : ∀ w ∈ legalWords t,
    checksOf (decodeWord (tableConfig t) (BitVec.ofNat 64 w)) = .ok () := by
  cases t <;> decide

/-- Under `EXCESS_DIGIT_MODE = FAULT` a word that decodes is an encoding's first word, so an opcode with
legal mode digits, and the tables' words decode. -/
theorem exists_decode_ok_iff_mem_legalWords {c : Config} (words : Nat → Word)
    (hmode : c.excessDigitMode = .fault) :
    (∃ i, decode c words = .ok i) ↔ (words 0).toNat ∈ legalWords c.jumpTarget := by
  constructor
  · rintro ⟨i, hi⟩
    obtain ⟨hwf, -, -, hfirst⟩ := decodedInstructionsReencode c words i hi
    obtain ⟨word, hencode, hword⟩ := encode_eq_cons i
    obtain rfl : word = words 0 := by simpa [hencode, streamOf] using hfirst hmode
    rw [hword]
    exact mem_legalWords_of_digitChoices _ _ (opcode_mem i) _ (digits_mem_digitChoices hwf)
  · intro hmem
    have hdecodes := decodeWord_legalWords c.jumpTarget _ hmem
    rw [BitVec.ofNat_toNat, BitVec.setWidth_eq, ← decodeWord_eq_tableConfig hmode] at hdecodes
    obtain ⟨h, hh⟩ := exists_eq_ok_of_checksOf hdecodes
    exact ⟨_, decode_eq_ok hh⟩

/-- Settles O54: the words that decode are those of the setting's table. -/
theorem legalWordsAreTheTables : Obligations.LegalWordsAreTheTables := by
  refine ⟨fun c words hmode => ?_, by decide, by decide, by decide⟩
  have hiff := exists_decode_ok_iff_mem_legalWords words hmode
  exact ⟨fun hj => by rwa [hj] at hiff, fun hj => by rwa [hj] at hiff⟩

/-! ### Parameters -/

/-- Settles O15: each mode is its effective address checked and read, or the literal. -/
theorem valueParametersResolveByMode : Obligations.ValueParametersResolveByMode := by
  intro i raw s
  exact ⟨fun h => resolveValue_of_negativeEA i (p := ⟨.position, raw⟩) h,
    fun h => resolveValue_position_of_nonneg i s h,
    rfl,
    fun h => resolveValue_of_negativeEA i (p := ⟨.relative, raw⟩) h,
    fun h => congrArg (Except.map (memRead s)) (checkAddress_nonneg h)⟩

/-- Settles O16: each mode is its effective address checked. -/
theorem writeParametersResolveToAddresses : Obligations.WriteParametersResolveToAddresses := by
  intro i raw s
  exact ⟨checkAddress_neg, checkAddress_nonneg, checkAddress_neg, checkAddress_nonneg⟩

theorem resolveTarget_of_value {p : ValueParam} {s : State} (hj : s.cfg.jumpTarget = .value) :
    resolveTarget p s = (resolveValue 2 p s).map BitVec.toInt := by
  rw [resolveTarget, hj]

theorem resolveTarget_of_address {p : ValueParam} {s : State} (hj : s.cfg.jumpTarget = .address)
    {m : WriteMode} (hm : p.mode = m.toMode) :
    resolveTarget p s = (resolveAddr 2 ⟨m, p.raw⟩ s).map Int.ofNat := by
  rw [resolveTarget, hj, hm]
  cases m <;> rfl

/-- Settles O17: the target is the value, or the address, of its setting, mapped to an integer. -/
theorem jumpTargetsResolveByTheirSetting : Obligations.JumpTargetsResolveByTheirSetting := by
  intro p s
  refine ⟨fun hj => ⟨by simp [legalTarget_iff, hj], fun x hx => ?_, fun x hx => ?_⟩,
    fun hj => ⟨by simp [legalTarget_iff, hj], fun hm => by simp [resolveTarget, hj, hm],
      fun m hm => ⟨fun d hd => ?_, fun x hx => ?_⟩⟩⟩
  · rw [resolveTarget_of_value hj, hx]
    rfl
  · rw [resolveTarget_of_value hj, hx]
    rfl
  · rw [resolveTarget_of_address hj hm, hd]
    rfl
  · rw [resolveTarget_of_address hj hm, hx]
    rfl

/-- Settles O33: both jumps ask for a legal target, and resolve to the decoder's raise without one. -/
theorem illFormedJumpTargetTakesTheDecodersFault :
    Obligations.IllFormedJumpTargetTakesTheDecodersFault := by
  intro cond target s hlegal i hi
  have hraise : resolveJump cond target s = .error ⟨.immediateWrite, 2⟩ := by
    simp [resolveJump, hlegal]
  refine ⟨?_, exec_of_resolveJump_error hi hraise⟩
  simp only [List.mem_cons, List.not_mem_nil, or_false] at hi
  rcases hi with rfl | rfl <;> exact hlegal

/-! ### Pseudo-instructions and examples -/

/-- Settles O55: each is an abbreviation of an instruction, and a jump is as legal as its target. -/
theorem pseudoInstructionsHaveTheirWords : Obligations.PseudoInstructionsHaveTheirWords := by
  refine ⟨fun _ => rfl, fun _ => rfl, fun _ _ => rfl, rfl, fun c hj => ⟨fun _ => ?_, fun _ => ?_⟩⟩ <;>
    simp [Instr.jmp, Instr.wellFormed, ValueParam.legalTarget, hj]

/-- Settles O56: the decoder, run on each example. -/
theorem exampleWordsDecode : Obligations.ExampleWordsDecode := by
  unfold Obligations.ExampleWordsDecode
  decide

end Sys2Proof.Machine
end

section
/-!
PROOFS. The execution cycle of 40_execution_cycle.md: the host's commands (R94, R97 to R104), one
instruction and its five phases (R90 to R92), the STEP transaction (R96, R107), and the host's loops of
STEPs (R105, R106).
-/

namespace Sys2Proof.Machine

open Host (Outcome)

/-! ### What an instruction of a running core does -/

/-- The event of an instruction's effects: output alone writes `out` and has OUTPUT, halt alone halts
and has HALT. -/
theorem effectsOf_event {i : Instr} {s : State} {e : Effects} (h : effectsOf i s = .ok e) :
    (e.event = .none ∧ e.halted = false ∧ e.out = s.out) ∨
    ((∃ a, i = .output a) ∧ e.event = .output ∧ e.halted = false) ∨
    (i = .halt ∧ e.event = .halt ∧ e.halted = true ∧ e.out = s.out) := by
  rcases effectsOf_ok h with ⟨_, _, _, rfl⟩ | ⟨_, _, _, _, _, _, rfl⟩ | ⟨_, _, _, _, rfl⟩ |
    ⟨a, _, hi, rfl⟩ | ⟨_, _, _, rfl | ⟨_, _, _, _, rfl⟩⟩ | ⟨_, _, _, rfl⟩ | ⟨hi, rfl⟩
  case inr.inr.inr.inl => exact .inr (.inl ⟨⟨a, hi⟩, rfl, rfl⟩)
  case inr.inr.inr.inr.inr.inr => exact .inr (.inr ⟨hi, rfl, rfl, rfl⟩)
  all_goals exact .inl ⟨rfl, rfl, rfl⟩

/-- How a step of a running core leaves it: running on with the same `out`, suspended by an output,
halted, or faulted (40_execution_cycle.md R90). -/
theorem step_suspension_cases {s t : State} (hrun : s.Running) (h : step s = .next t) :
    (t.busy = true ∧ t.Running ∧ t.out = s.out) ∨
    (t.busy = false ∧ t.Running ∧ ∃ a, fetchDecode s = .ok (.output a)) ∨
    (t.busy = false ∧ t.halted = true ∧ t.fault = none ∧ t.out = s.out ∧ fetchDecode s = .ok .halt) ∨
    (t.busy = false ∧ t.halted = false ∧ t.fault ≠ none ∧ t.out = s.out) := by
  obtain ⟨hh, hf⟩ := hrun
  rcases step_next_cases h with ⟨hstopped, _⟩ | ⟨_, x, _, rfl⟩ | ⟨_, i, e, hi, he, _, rfl⟩
  · simp [hh, hf] at hstopped
  · exact .inr (.inr (.inr ⟨rfl, hh, nofun, rfl⟩))
  · rcases effectsOf_event he with ⟨hev, heh, ho⟩ | ⟨⟨a, rfl⟩, hev, heh⟩ | ⟨rfl, hev, heh, ho⟩
    · exact .inl ⟨by simp [hev], ⟨by simp [hh, heh], by simp [hf]⟩, ho⟩
    · exact .inr (.inl ⟨by simp [hev], ⟨by simp [hh, heh], by simp [hf]⟩, a, hi⟩)
    · exact .inr (.inr (.inl ⟨by simp [hev], by simp [heh], by simp [hf], ho, hi⟩))

/-- Settles O35: the words at `ip` are the fetched ones. -/
theorem stepRunsTheDecodedInstruction : Obligations.StepRunsTheDecodedInstruction :=
  fun _ _ hrun hdecode => step_of_fetchDecode_ok hrun hdecode

/-! ### The five phases -/

/-- `exec1` of 40_execution_cycle.md R91 up to COMMIT: the checked effects of the instruction at `ip`, or
its first raise. -/
def checkedEffects (s : State) : Except Raise Effects :=
  ((fetchDecode s).bind fun i => effectsOf i s).bind (Effects.check s)

theorem step_eq_of_running {s : State} (hrun : s.Running) :
    step s = complete ((fetchDecode s).bind fun i => effectsOf i s) s := by
  cases hd : fetchDecode s with
  | error x => exact step_of_fetchDecode_error hrun hd
  | ok i => exact (step_of_fetchDecode_ok hrun hd).trans (exec_eq_complete i s)

theorem step_of_checkedEffects_ok {s : State} {e : Effects} (hrun : s.Running) (h : checkedEffects s = .ok e) :
    step s = .next (commit s e) := by
  rw [checkedEffects] at h
  rw [step_eq_of_running hrun, complete, h]

theorem step_of_checkedEffects_error {s : State} {x : Raise} (hrun : s.Running)
    (h : checkedEffects s = .error x) : step s = .next (takeFault x s) := by
  rw [checkedEffects] at h
  rw [step_eq_of_running hrun, complete, h]

theorem exists_of_bind_eq_ok {α β : Type} {x : Except Raise α} {f : α → Except Raise β} {b : β}
    (h : x.bind f = .ok b) : ∃ a, x = .ok a ∧ f a = .ok b := by
  cases x with
  | error y => cases h
  | ok a => exact ⟨a, rfl, h⟩

/-- The check passes effects through unchanged. -/
theorem effectsOf_of_checkedEffects_ok {s : State} {e : Effects} (h : checkedEffects s = .ok e) :
    ∃ i, effectsOf i s = .ok e := by
  obtain ⟨e', hdecoded, hcheck⟩ := exists_of_bind_eq_ok h
  obtain ⟨i, -, he⟩ := exists_of_bind_eq_ok hdecoded
  rcases check_cases s e' with ⟨_, hc⟩ | ⟨_, _, _, hc⟩ <;> cases hc.symm.trans hcheck
  exact ⟨i, he⟩

/-- How the phases of an instruction with checked effects end. -/
def PhaseOutcome.ofChecked (s : State) : Except Raise Effects → PhaseOutcome
  | .ok e => .committed (commit s e) e.event
  | .error x => .faulted (takeFault x s)

theorem runPhases_execute (s : State) (r : Resolved) :
    runPhases s 2 (.execute r) = .ofChecked s ((r.effects s).bind (Effects.check s)) := by
  simp only [runPhases, phaseStep]
  cases (r.effects s).bind (Effects.check s) <;> rfl

theorem runPhases_resolve (s : State) (h : Header) :
    runPhases s 3 (.resolve h) =
      .ofChecked s ((effectsOf (h.withOperands (fetchWords s)) s).bind (Effects.check s)) := by
  rw [runPhases, phaseStep, effectsOf]
  cases resolveInstr s (h.withOperands (fetchWords s)) with
  | error x => rfl
  | ok r => exact runPhases_execute s r

/-- The phases from FETCH on are the stages of `checkedEffects` and their end. -/
theorem runPhases_fetch (s : State) : runPhases s 5 .fetch = .ofChecked s (checkedEffects s) := by
  have hdecode : fetchDecode s =
      (decodeWord s.cfg (memRead s s.ip)).map (Header.withOperands (fetchWords s)) := rfl
  rw [runPhases, phaseStep, checkedEffects, hdecode]
  simp only [runPhases, phaseStep]
  cases decodeWord s.cfg (memRead s s.ip) with
  | error x => rfl
  | ok h => exact runPhases_resolve s h

/-- Settles O46: the phases and the step end by the same checked effects, whose event says how. -/
theorem fivePhasesAreOneStep : Obligations.FivePhasesAreOneStep := by
  intro s hrun
  have hphases := runPhases_fetch s
  cases hc : checkedEffects s with
  | error x =>
    rw [hc] at hphases
    exact .inr ⟨takeFault x s, hphases, step_of_checkedEffects_error hrun hc, rfl⟩
  | ok e =>
    rw [hc] at hphases
    obtain ⟨i, he⟩ := effectsOf_of_checkedEffects_ok hc
    have hhalt : e.event = .halt ↔ e.halted = true := by
      rcases effectsOf_event he with ⟨hev, heh, -⟩ | ⟨-, hev, heh⟩ | ⟨-, hev, heh, -⟩ <;> simp [hev, heh]
    exact .inl ⟨commit s e, e.event, hphases, step_of_checkedEffects_ok hrun hc, by simp [hrun.2], by simp,
      by simp [hrun.1, hhalt]⟩

/-! ### The loop of STEP as a run of steps -/

/-- After `k + 1` steps from `s`, and not before, the core has left BUSY, in the state `t`. -/
def LeavesBusyAfter (k : Nat) (s t : State) : Prop :=
  Sys2Proof.core.run (k + 1) s = .next t ∧ t.busy = false ∧
    ∀ j u, j < k → Sys2Proof.core.run (j + 1) s = .next u → u.busy = true

theorem run_succ_of_step (M : Host.Core) {s u : M.State} (h : M.step s = .next u) (k : Nat) :
    M.run (k + 1) s = M.run k u := by
  rw [Host.Core.run, h]

theorem run_succ {s u : State} (h : step s = .next u) (k : Nat) :
    Sys2Proof.core.run (k + 1) s = Sys2Proof.core.run k u :=
  run_succ_of_step Sys2Proof.core h k

theorem run_zero_eq_next_iff {s t : State} : Sys2Proof.core.run 0 s = .next t ↔ s = t :=
  ⟨fun h => Outcome.next.inj (show Outcome.next s = .next t from h), fun h => congrArg Outcome.next h⟩

theorem leavesBusyAfter_zero {s t u : State} (h : step s = .next u) :
    LeavesBusyAfter 0 s t ↔ u = t ∧ t.busy = false := by
  unfold LeavesBusyAfter
  rw [run_succ h, run_zero_eq_next_iff]
  exact and_congr_right fun _ => and_iff_left fun j _ hj => absurd hj (Nat.not_lt_zero j)

theorem leavesBusyAfter_succ {s t u : State} (h : step s = .next u) (k : Nat) :
    LeavesBusyAfter (k + 1) s t ↔ u.busy = true ∧ LeavesBusyAfter k u t := by
  unfold LeavesBusyAfter
  simp only [run_succ h]
  constructor
  · rintro ⟨hrun, hb, hbefore⟩
    exact ⟨hbefore 0 u (Nat.succ_pos k) rfl, hrun, hb, fun j v hj => hbefore (j + 1) v (Nat.succ_lt_succ hj)⟩
  · rintro ⟨hu, hrun, hb, hbefore⟩
    refine ⟨hrun, hb, fun j v hj hv => ?_⟩
    cases j with
    | zero => cases hv; exact hu
    | succ j => exact hbefore j v (Nat.lt_of_succ_lt_succ hj) hv

/-- Settles O48: by induction on the bound, one step of the loop being one step of the run. -/
theorem transactionIsTheRunOfSteps : Obligations.TransactionIsTheRunOfSteps := by
  intro budget s t r
  suffices hloop : stepTransaction budget s = .next (t, r) ↔
      ∃ k, k + 1 ≤ budget ∧ LeavesBusyAfter k s t ∧ r = stepResponse t by
    rw [hloop]
    refine exists_congr fun k => and_congr_right fun _ => ?_
    unfold LeavesBusyAfter
    tauto
  induction budget generalizing s with
  | zero => simp [stepTransaction]
  | succ budget ih =>
    obtain ⟨u, hu⟩ := step_next s
    rw [stepTransaction_succ budget hu, ← Nat.or_exists_add_one]
    simp only [leavesBusyAfter_zero hu, leavesBusyAfter_succ hu]
    cases hb : u.busy with
    | true =>
      have hon : ¬ (u = t ∧ t.busy = false) := by
        rintro ⟨rfl, hb'⟩
        simp [hb] at hb'
      simp [hon, ih]
    | false =>
      constructor
      · intro h
        cases h
        exact .inl ⟨Nat.le_add_left 1 budget, ⟨rfl, hb⟩, rfl⟩
      · rintro (⟨-, ⟨rfl, -⟩, rfl⟩ | ⟨k, -, ⟨hbusy, -⟩, -⟩)
        · rfl
        · cases hbusy

/-! ### The suspension a STEP responds at -/

theorem stepResponse_of_fault {t : State} (hf : t.fault ≠ none) : stepResponse t = .fault :=
  if_pos (Option.isSome_iff_ne_none.mpr hf)

theorem stepResponse_of_halted {t : State} (hf : t.fault = none) (hh : t.halted = true) :
    stepResponse t = .halt := by
  simp [stepResponse, hf, hh]

theorem stepResponse_of_running {t : State} (hrun : t.Running) : stepResponse t = .output t.out := by
  simp [stepResponse, hrun.1, hrun.2]

/-- The loop of STEP responds after the first step that leaves BUSY, and until that step `out` is what it
was. -/
theorem exists_last_step_of_stepTransaction {budget : Nat} {s t : State} {r : Response} (hrun : s.Running)
    (h : stepTransaction budget s = .next (t, r)) :
    t.busy = false ∧ r = stepResponse t ∧ ∃ u, u.Running ∧ u.out = s.out ∧ step u = .next t := by
  induction budget generalizing s with
  | zero => cases h
  | succ budget ih =>
    obtain ⟨u, hu⟩ := step_next s
    rw [stepTransaction_succ budget hu] at h
    rcases step_suspension_cases hrun hu with ⟨hb, hrun', ho⟩ | ⟨hb, -⟩ | ⟨hb, -⟩ | ⟨hb, -⟩ <;>
      simp only [hb, if_true, Bool.false_eq_true, if_false] at h
    case inl => simpa only [ho] using ih hrun' h
    all_goals
      cases h
      exact ⟨hb, rfl, s, hrun, rfl, hu⟩

/-- STEP of a running core is its loop (40_execution_cycle.md R96 to R98). -/
theorem stepCommand_of_running (budget : Nat) {s : State} (hrun : s.Running) :
    stepCommand budget s = stepTransaction budget s := by
  simp [stepCommand, hrun.1, hrun.2]

/-- Settles O47: the last step of the loop leaves BUSY in one of the three ways an instruction can. -/
theorem stepRespondsOnlyAtASuspension : Obligations.StepRespondsOnlyAtASuspension := by
  intro budget s t r hrun h
  rw [stepCommand_of_running budget hrun] at h
  obtain ⟨hbusy, rfl, u, hu, -, hstep⟩ := exists_last_step_of_stepTransaction hrun h
  refine ⟨hbusy, u, hu, hstep, ?_⟩
  rcases step_suspension_cases hu hstep with ⟨hb, -⟩ | ⟨-, ht, a, hd⟩ | ⟨-, hh, hf, -, hd⟩ | ⟨-, hh, hf, -⟩
  · simp [hbusy] at hb
  · exact .inl ⟨a, hd, stepResponse_of_running ht, ht⟩
  · exact .inr (.inl ⟨hd, stepResponse_of_halted hf hh, hh, hf⟩)
  · exact .inr (.inr ⟨stepResponse_of_fault hf, hf, hh⟩)

/-! ### The host's loops of STEPs -/

theorem command_step_of_not_busy (budget : Nat) {s : State} (hb : s.control ≠ .busy) :
    command budget .step s = stepCommand budget s :=
  if_neg hb

/-- A STEP that responds with no OUTPUT leaves `out` as it is. -/
theorem out_eq_of_command_step {budget : Nat} {s t : State} {r : Response}
    (h : command budget .step s = .next (t, r)) (hr : r.isOutput = false) : t.out = s.out := by
  by_cases hb : s.control = .busy
  · rw [command, if_pos hb] at h
    cases h
  rw [command_step_of_not_busy budget hb, stepCommand] at h
  split_ifs at h with hf hh
  · cases h
    rfl
  · cases h
    rfl
  have hrun : s.Running := ⟨by simpa using hh, by simpa using hf⟩
  obtain ⟨hbusy, rfl, u, hu, ho, hstep⟩ := exists_last_step_of_stepTransaction hrun h
  rcases step_suspension_cases hu hstep with ⟨hb, -⟩ | ⟨-, ht, -⟩ | ⟨-, -, -, ho', -⟩ | ⟨-, -, -, ho'⟩
  · simp [hbusy] at hb
  · simp [stepResponse_of_running ht, Response.isOutput] at hr
  · exact ho'.trans ho
  · exact ho'.trans ho

/-- The result of a drained sequence for a host that keeps the last output only, `d` where there is
none. -/
def DriverResult.lastOutput (d : Word) : DriverResult (List Word) → DriverResult Word
  | .done outs => .done (outs.getLastD d)
  | .aborted record outs => .aborted record (outs.getLastD d)

theorem endLoop_lastOutput {t t' : State} {r : Response} {outs : List Word} {d : Word}
    {res : DriverResult (List Word)} (h : endLoop t r outs = .next (t', res)) :
    endLoop t r (outs.getLastD d) = .next (t', res.lastOutput d) := by
  unfold endLoop at h ⊢
  split_ifs at h ⊢ <;> cases h <;> rfl

/-- The two loops issue the same STEPs, and `out` is at every turn the last output collected. -/
theorem runToCompletion_of_drainFrom {budget steps : Nat} {s t : State} {outs : List Word} {d : Word}
    {res : DriverResult (List Word)} (hlast : outs.getLastD d = s.out)
    (h : drainFrom budget outs steps s = .next (t, res)) :
    runToCompletion budget steps s = .next (t, res.lastOutput d) := by
  induction steps generalizing s outs with
  | zero => cases h
  | succ steps ih =>
    unfold drainFrom at h
    unfold runToCompletion
    cases hc : command budget .step s with
    | fault f => rw [hc] at h; cases h
    | refused f => rw [hc] at h; cases h
    | next p =>
      obtain ⟨u, r⟩ := p
      simp only [hc] at h ⊢
      cases hr : r.isOutput with
      | true =>
        rw [hr, if_pos rfl] at h
        exact ih (by simp) h
      | false =>
        simp only [hr, Bool.false_eq_true, if_false] at h ⊢
        rw [out_eq_of_command_step hc hr, ← hlast]
        exact endLoop_lastOutput h

/-- Settles O50: drainAllOutputs starts with nothing collected, so the last output is then `out`. -/
theorem completionReturnsTheLastDrainedOutput : Obligations.CompletionReturnsTheLastDrainedOutput :=
  fun _ _ _ _ _ =>
    ⟨fun h => runToCompletion_of_drainFrom rfl h, fun _ h => runToCompletion_of_drainFrom rfl h⟩

/-! ### The commands of a core that is not BUSY -/

/-- Settles O8: a POKE is `MemWrite`, whose raise is the refusal. -/
theorem pokeStoresBelowTheCapacityElseIsRefused : Obligations.PokeStoresBelowTheCapacityElseIsRefused := by
  intro budget a v s hb
  have hpoke : command budget (.poke a v) s = .next (pokeCommand a v s) := if_neg hb
  rw [hpoke, pokeCommand]
  rcases memWrite_cases 0 a.toNat v s with ⟨ha, h⟩ | ⟨ha, h⟩ <;> rw [h]
  · refine ⟨fun _ => ⟨storeWord a.toNat v s, rfl, ?_, registers_storeWord a.toNat v s⟩,
      fun hle => absurd ha hle.not_gt⟩
    exact ⟨memRead_storeWord_same a.toNat v s, fun b => memRead_storeWord_other a.toNat b v s,
      storeWord_memLen a.toNat v s⟩
  · exact ⟨fun hlt => absurd hlt ha.not_gt, fun _ => rfl⟩

/-- Settles O3: the length is compared before anything is loaded. -/
theorem oversizedLoadIsRefused : Obligations.OversizedLoadIsRefused := by
  intro budget image s hb hlen
  have hload : command budget (.load image) s = .next (loadCommand image s) := if_neg hb
  rw [hload, loadCommand, if_pos hlen]

/-- Settles O5: the queue is full exactly where `INQ_DEPTH` is a number and its length is that number. -/
theorem feedAppendsUnlessTheQueueIsFull : Obligations.FeedAppendsUnlessTheQueueIsFull := by
  intro budget v s hb
  have hfeed : command budget (.feed v) s = .next (feedCommand v s) := if_neg hb
  rw [hfeed]
  refine ⟨fun depth hd hlen => ?_, fun depth hd hlen => ?_, fun hd => ?_⟩
  · simp [feedCommand, State.queueFull, hd, hlen]
  · simp [feedCommand, State.queueFull, hd, hlen]
  · simp [feedCommand, State.queueFull, hd]

/-- Settles O6: the command's own equation, once the core is not BUSY. -/
theorem setLatchWritesTheLatchOnly : Obligations.SetLatchWritesTheLatchOnly :=
  fun _ _ _ hb => if_neg hb

/-- Settles O7: the command's own equation, and the two cases of `MemRead`. -/
theorem peekAnswersTheWordAndChangesNothing : Obligations.PeekAnswersTheWordAndChangesNothing :=
  fun _ _ _ hb => ⟨if_neg hb, memRead_of_le, fun h => if_pos h⟩

/-! ### A core that is BUSY, halted or faulted -/

/-- Settles O11: the control state is tested before the command. -/
theorem commandWhileBusyIsRefusedByName : Obligations.CommandWhileBusyIsRefusedByName :=
  fun _ _ _ hb => if_pos hb

/-- Settles O9: `step` and STEP both test for a fault, and then for halted, before they run anything. -/
theorem stepOfAHaltedOrFaultedCoreExecutesNothing : Obligations.StepOfAHaltedOrFaultedCoreExecutesNothing := by
  intro budget s
  refine ⟨fun hf => ?_, fun hf hh => ?_⟩
  · have hsome : s.fault.isSome = true := Option.isSome_iff_ne_none.mpr hf
    have hb : s.control ≠ .busy := by simp [State.control, hsome]
    exact ⟨step_of_stopped (.inl hsome), by
      rw [command_step_of_not_busy budget hb, stepCommand, if_pos hsome]⟩
  · have hb : s.control ≠ .busy := by simp [State.control, hf, hh]
    have hstep : command budget .step s = .next (s, postHaltResponse s.cfg) := by
      simp [command_step_of_not_busy budget hb, stepCommand, hf, hh]
    rw [hstep]
    exact ⟨step_of_stopped (.inr hh), fun hp => by rw [postHaltResponse, hp],
      fun hp => by rw [postHaltResponse, hp]⟩

end Sys2Proof.Machine
end

section
/-!
PROOFS. The instructions that complete with a store: what a commit of their effects leaves behind
(20_memory.md R48, R51; 40_execution_cycle.md R92), and with it add and mul (41_arithmetic.md).
-/

namespace Sys2Proof.Machine

/-! ### An instruction that stores and falls through -/

theorem memoryStored_storeWord (d : Nat) (v : Word) (s : State) : s.MemoryStored (storeWord d v s) d v :=
  ⟨memRead_storeWord_same d v s, fun a => memRead_storeWord_other d a v s, storeWord_memLen d v s⟩

/-- A commit leaves the memory that the store of its write leaves. -/
theorem memoryStored_commit {s : State} {e : Effects} {w : PendingWrite} (h : e.write = some w) :
    s.MemoryStored (commit s e) w.addr w.value := by
  obtain ⟨hwritten, helsewhere, hlength⟩ := memoryStored_storeWord w.addr w.value s
  have hread (a : Nat) : memRead (commit s e) a = memRead (storeWord w.addr w.value s) a := by
    rw [memRead_commit, storedBy_of_write_some h]
  refine ⟨(hread _).trans hwritten, fun a ha => (hread a).trans (helsewhere a ha), ?_⟩
  rw [commit_memLen, storedBy_of_write_some h, hlength]

/-- A commit of storing effects moves `ip` past the instruction and keeps every other register. -/
theorem registers_commit_storing (s : State) (width : Nat) (p : Fin 4) (d : Nat) (v : Word) :
    (commit s (Effects.storing s width p d v)).registers =
      { s.registers with ip := s.ip + width, busy := true } := by
  simp [State.registers]

/-- Effects whose write is below the capacity are committed. -/
theorem exec_of_write_below {i : Instr} {s : State} {e : Effects} {w : PendingWrite}
    (h : effectsOf i s = .ok e) (hw : e.write = some w) (hlt : w.addr < s.cfg.memCapacity) :
    exec i s = .next (commit s e) := by
  rw [exec_eq_complete, h]
  rcases check_cases s e with ⟨_, hc⟩ | ⟨w', hw', hle, _⟩
  · simp only [complete, Except.bind, hc]
  · obtain rfl : w = w' := Option.some.inj (hw.symm.trans hw')
    exact absurd hlt hle.not_gt

/-- An instruction whose effects store `v` at `d`, below the capacity, completes. -/
theorem exec_of_storing {i : Instr} {s : State} {width : Nat} {p : Fin 4} {d : Nat} {v : Word}
    (h : effectsOf i s = .ok (Effects.storing s width p d v)) (hd : d < s.cfg.memCapacity) :
    ∃ t, exec i s = .next t ∧ s.MemoryStored t d v ∧
      t.registers = { s.registers with ip := s.ip + width, busy := true } :=
  have hw := storing_write s width p d v
  ⟨_, exec_of_write_below h hw hd, memoryStored_commit hw, registers_commit_storing s width p d v⟩

/-! ### add and mul -/

/-- An instruction that stores an exact result under the range rule stores the word that is
congruent to the result, and equal to it in range (00_scope.md R12). -/
theorem exec_of_arith_storing {i : Instr} {s : State} {v : Int} {width : Nat} {p : Fin 4} {d : Nat}
    (h : effectsOf i s = (arith s.cfg v).map (Effects.storing s width p d))
    (hd : d < s.cfg.memCapacity) (hv : inI64 v ∨ s.cfg.overflowMode = .wrap) :
    ∃ t r, exec i s = .next t ∧ s.MemoryStored t d r ∧ (inI64 v → r.toInt = v) ∧
      (2 ^ 64 : Int) ∣ r.toInt - v ∧
      t.registers = { s.registers with ip := s.ip + width, busy := true } := by
  obtain ⟨t, hexec, hmem, hregs⟩ := exec_of_storing (h.trans (arith_map_eq_ok _ hv)) hd
  exact ⟨t, wrap64 v, hexec, hmem, wrap64_toInt, wrap64_congr v, hregs⟩

/-- Settles O19: the effects of add are the exact sum under the range rule, stored. -/
theorem addStoresTheSum : Obligations.AddStoresTheSum := by
  intro a b dst s x y d hx hy haddr hd hv
  exact exec_of_arith_storing (effectsOf_add (resolveThree_ok_iff.mpr ⟨hx, hy, haddr⟩)) hd hv

/-- Settles O20: the effects of mul are the exact product under the range rule, stored. -/
theorem mulStoresTheProduct : Obligations.MulStoresTheProduct := by
  intro a b dst s x y d hx hy haddr hd hv
  exact exec_of_arith_storing (effectsOf_mul (resolveThree_ok_iff.mpr ⟨hx, hy, haddr⟩)) hd hv

end Sys2Proof.Machine
end

section
/-!
PROOFS. input and output (42_io.md), and with output the instructions that commit without a store.
-/

namespace Sys2Proof.Machine

/-! ### An instruction that stores nothing -/

/-- A commit without a write changes the named registers only. -/
theorem commit_of_write_none {s : State} {e : Effects} (h : e.write = none) :
    commit s e = { s with
      ip := e.ip
      rb := e.rb
      out := e.out
      inq := if e.pop then s.inq.tail else s.inq
      halted := s.halted || e.halted
      busy := decide (e.event = .none) } := by
  simp only [commit, h]

/-- Effects without a write are committed: the capacity check has nothing to refuse. -/
theorem exec_of_write_none {i : Instr} {s : State} {e : Effects} (h : effectsOf i s = .ok e)
    (hw : e.write = none) : exec i s = .next (commit s e) := by
  rw [exec_eq_complete, h]
  rcases check_cases s e with ⟨_, hc⟩ | ⟨w, hw', _, _⟩
  · simp only [complete, Except.bind, hc]
  · simp [hw] at hw'

/-! ### input -/

theorem inputEffects_of_cons {s : State} {v : Word} {q : List Word} (d : Nat) (hq : s.inq = v :: q) :
    inputEffects d s = .ok { Effects.storing s 2 1 d v with pop := true } := by
  simp only [inputEffects, hq]

theorem inputEffects_of_nil {s : State} (d : Nat) (hq : s.inq = []) :
    inputEffects d s = .ok (Effects.storing s 2 1 d s.latch) := by
  simp only [inputEffects, hq]

/-- A commit of storing effects that pop leaves the tail of the queue besides. -/
theorem registers_commit_storing_pop (s : State) (width : Nat) (p : Fin 4) (d : Nat) (v : Word) :
    (commit s { Effects.storing s width p d v with pop := true }).registers =
      { s.registers with ip := s.ip + width, inq := s.inq.tail, busy := true } := by
  simp [State.registers]

/-- Settles O23: with an entry in the queue the effects store it and pop, and with none they store
the latch; the write at `d` is below the capacity in both cases, so they are committed. -/
theorem inputStoresTheQueueHeadOrTheLatch : Obligations.InputStoresTheQueueHeadOrTheLatch := by
  intro dst s d haddr hd
  refine ⟨fun v q hq => ?_, fun hq => ?_⟩
  · have heffects := (effectsOf_input haddr).trans (inputEffects_of_cons d hq)
    refine ⟨_, exec_of_write_below heffects rfl hd, memoryStored_commit (w := ⟨d, v, 1⟩) rfl, ?_⟩
    rw [registers_commit_storing_pop, hq, List.tail_cons]
  · exact exec_of_storing ((effectsOf_input haddr).trans (inputEffects_of_nil d hq)) hd

/-! ### output -/

theorem effectsOf_output {a : ValueParam} {s : State} {x : Word} (h : resolveValue 1 a s = .ok x) :
    effectsOf (.output a) s = .ok { Effects.quiet s (s.ip + 2) .output with out := x } := by
  simp only [effectsOf, resolveInstr, h]
  rfl

/-- Settles O24: the effects of output store nothing, and their event is OUTPUT, which leaves BUSY. -/
theorem outputLatchesTheValueAndSuspends : Obligations.OutputLatchesTheValueAndSuspends := by
  intro a s x hx
  rw [exec_of_write_none (effectsOf_output hx) rfl, commit_of_write_none rfl]
  simp

end Sys2Proof.Machine
end

section
/-!
PROOFS. jump-if-true and jump-if-false (43_jumps.md): taken, not taken, and taken to a negative
target.
-/

namespace Sys2Proof.Machine

/-! ### The effects of a jump -/

theorem jumpEffects_taken_of_nonneg {g : Int} (s : State) (hg : 0 ≤ g) :
    jumpEffects true g s = .ok (Effects.quiet s g.toNat .none) :=
  if_neg (not_lt.mpr hg)

theorem jumpEffects_taken_of_neg {g : Int} (s : State) (hg : g < 0) :
    jumpEffects true g s = .error ⟨.negativeJumpTarget, 2⟩ :=
  if_pos hg

theorem jumpEffects_not_taken (g : Int) (s : State) :
    jumpEffects false g s = .ok (Effects.quiet s (s.ip + 3) .none) := rfl

/-- Only the word 0 has the signed value 0, which is what R114 and R115 test. -/
theorem toInt_eq_zero_iff (w : Word) : w.toInt = 0 ↔ w = 0 := by
  rw [← BitVec.toInt_inj, BitVec.ofNat_eq_ofNat, BitVec.toInt_zero]

section
variable {cond target : ValueParam} {s : State} {c : Word} {g : Int}

/-- jump-if-true is taken when the signed value of its condition is not 0 (43_jumps.md R114). -/
theorem effectsOf_jumpIfTrue (h : resolveJump cond target s = .ok (c, g)) :
    effectsOf (.jumpIfTrue cond target) s = jumpEffects (decide (c.toInt ≠ 0)) g s := by
  simp only [effectsOf, resolveInstr, h, ne_eq, toInt_eq_zero_iff]
  rfl

/-- jump-if-false is taken when the signed value of its condition is 0 (43_jumps.md R115). -/
theorem effectsOf_jumpIfFalse (h : resolveJump cond target s = .ok (c, g)) :
    effectsOf (.jumpIfFalse cond target) s = jumpEffects (decide (c.toInt = 0)) g s := by
  simp only [effectsOf, resolveInstr, h, toInt_eq_zero_iff]
  rfl

end

/-! ### What a jump does, by whether it is taken -/

/-- Effects that only move `ip`, with no event, leave the core BUSY. -/
theorem exec_of_quiet {i : Instr} {s : State} {n : Nat} (h : effectsOf i s = .ok (Effects.quiet s n .none)) :
    exec i s = .next { s with ip := n, busy := true } := by
  rw [exec_of_write_none h rfl, commit_of_write_none rfl]
  simp

section
variable {i : Instr} {taken : Bool} {g : Int} {s : State} (h : effectsOf i s = jumpEffects taken g s)
include h

theorem exec_of_jump_taken (ht : taken = true) (hg : 0 ≤ g) :
    exec i s = .next { s with ip := g.toNat, busy := true } := by
  subst ht
  exact exec_of_quiet (h.trans (jumpEffects_taken_of_nonneg s hg))

theorem exec_of_jump_taken_neg (ht : taken = true) (hg : g < 0) :
    exec i s = .next (s.faultedWith .negativeJumpTarget 2) := by
  subst ht
  exact exec_of_effectsOf_error (h.trans (jumpEffects_taken_of_neg s hg))

theorem exec_of_jump_not_taken (ht : taken = false) :
    exec i s = .next { s with ip := s.ip + 3, busy := true } := by
  subst ht
  exact exec_of_quiet (h.trans (jumpEffects_not_taken g s))

end

/-! ### The two jumps -/

/-- Settles O25: the condition decides which of the two ends of a jump this one has. -/
theorem jumpIfTrueSetsIpWhenNonzero : Obligations.JumpIfTrueSetsIpWhenNonzero := by
  intro cond target s c g hlegal hcond htarget
  have heffects := effectsOf_jumpIfTrue (resolveJump_ok_iff.mpr ⟨hlegal, hcond, htarget⟩)
  exact ⟨fun hc hg => exec_of_jump_taken heffects (decide_eq_true hc) hg,
    fun hc => exec_of_jump_not_taken heffects (decide_eq_false (not_not.mpr hc))⟩

/-- Settles O26: as O25, the condition reversed. -/
theorem jumpIfFalseSetsIpWhenZero : Obligations.JumpIfFalseSetsIpWhenZero := by
  intro cond target s c g hlegal hcond htarget
  have heffects := effectsOf_jumpIfFalse (resolveJump_ok_iff.mpr ⟨hlegal, hcond, htarget⟩)
  exact ⟨fun hc hg => exec_of_jump_taken heffects (decide_eq_true hc) hg,
    fun hc => exec_of_jump_not_taken heffects (decide_eq_false hc)⟩

/-- Settles O32: both jumps are taken, and a taken jump raises at its negative target. -/
theorem takenJumpToANegativeTargetFaults : Obligations.TakenJumpToANegativeTargetFaults := by
  intro cond target s c g hlegal hcond htarget hg
  have hr := resolveJump_ok_iff.mpr ⟨hlegal, hcond, htarget⟩
  exact ⟨fun hc => exec_of_jump_taken_neg (effectsOf_jumpIfTrue hr) (decide_eq_true hc) hg,
    fun hc => exec_of_jump_taken_neg (effectsOf_jumpIfFalse hr) (decide_eq_true hc) hg⟩

end Sys2Proof.Machine
end

section
/-!
PROOFS. less-than and equals (44_compare.md).
-/

namespace Sys2Proof.Machine

/-! ### The words of a comparison -/

/-- A truth value is the word 1 where the proposition it decides holds, else 0 (10_state.md R30). -/
theorem truthWord_decide (p : Prop) [Decidable p] : truthWord (decide p) = if p then 1 else 0 := by
  simp only [truthWord, decide_eq_true_eq]

theorem lessThanWord_eq_ite (x y : Word) : lessThanWord x y = if x.toInt < y.toInt then 1 else 0 :=
  truthWord_decide (x.toInt < y.toInt)

/-- Words are equal as bits exactly when they are equal as signed values. -/
theorem equalsWord_eq_ite (x y : Word) : equalsWord x y = if x.toInt = y.toInt then 1 else 0 := by
  simp only [equalsWord, truthWord_decide, BitVec.toInt_inj]

/-! ### The two comparisons -/

/-- Settles O21: the effects of less-than store the word of the signed comparison. -/
theorem lessThanStoresTheTruthValue : Obligations.LessThanStoresTheTruthValue := by
  intro a b dst s x y d hx hy haddr hd
  rw [← lessThanWord_eq_ite]
  exact exec_of_storing (effectsOf_lessThan (resolveThree_ok_iff.mpr ⟨hx, hy, haddr⟩)) hd

/-- Settles O22: the effects of equals store the word of the comparison. -/
theorem equalsStoresTheTruthValue : Obligations.EqualsStoresTheTruthValue := by
  intro a b dst s x y d hx hy haddr hd
  rw [← equalsWord_eq_ite]
  exact exec_of_storing (effectsOf_equals (resolveThree_ok_iff.mpr ⟨hx, hy, haddr⟩)) hd

end Sys2Proof.Machine
end

section
/-!
PROOFS. adjust-base and halt (45_base_and_halt.md): neither stores, so each commits its registers only.
-/

namespace Sys2Proof.Machine

/-! ### adjust-base -/

/-- Where the range rule answers, adjust-base has the effects that put the brought-in-range sum in
`rb` and fall through (45_base_and_halt.md R118). -/
theorem adjustBaseEffects_eq_ok {s : State} {x : Word}
    (hv : inI64 (s.rb.toInt + x.toInt) ∨ s.cfg.overflowMode = .wrap) :
    adjustBaseEffects x s =
      .ok { Effects.quiet s (s.ip + 2) .none with rb := wrap64 (s.rb.toInt + x.toInt) } :=
  arith_map_eq_ok _ hv

/-- Settles O27: the effects of adjust-base are the exact sum under the range rule, put in `rb`. -/
theorem adjustBaseAddsToTheBase : Obligations.AdjustBaseAddsToTheBase := by
  intro a s x hx hv
  have heffects := (effectsOf_adjustBase hx).trans (adjustBaseEffects_eq_ok hv)
  refine ⟨wrap64 (s.rb.toInt + x.toInt), ?_, wrap64_toInt, wrap64_congr _⟩
  rw [exec_of_write_none heffects rfl, commit_of_write_none rfl]
  simp

/-! ### halt -/

theorem effectsOf_halt (s : State) :
    effectsOf .halt s = .ok { Effects.quiet s s.ip .halt with halted := true } := rfl

/-- Settles O28: the effects of halt store nothing and keep `ip`, and their event is HALT, which
leaves BUSY. -/
theorem haltSetsTheFlagAndKeepsIp : Obligations.HaltSetsTheFlagAndKeepsIp := by
  intro s
  rw [exec_of_write_none (effectsOf_halt s) rfl, commit_of_write_none rfl]
  simp

end Sys2Proof.Machine
end

section
/-!
PROOFS. The faults of 60_exceptions.md: which faults the table allows each instruction (R122, R123), and
what entering a fault writes (R121, R126).
-/

namespace Sys2Proof.Machine

/-! ### Where a raise comes from -/

section
variable {α β : Type} {r : Except Raise α} {x : Raise}

theorem eq_error_or_exists_of_bind_eq_error {f : α → Except Raise β} (h : r.bind f = .error x) :
    r = .error x ∨ ∃ a, r = .ok a ∧ f a = .error x := by
  cases r with
  | error y =>
    cases h
    exact .inl rfl
  | ok a => exact .inr ⟨a, rfl, h⟩

theorem eq_error_of_map_eq_error {f : α → β} (h : r.map f = .error x) : r = .error x := by
  cases r with
  | error y =>
    cases h
    rfl
  | ok a => cases h

theorem exists_of_map_eq_ok {f : α → β} {b : β} (h : r.map f = .ok b) : ∃ a, r = .ok a ∧ f a = b := by
  cases r with
  | error y => cases h
  | ok a => exact ⟨a, rfl, Except.ok.inj h⟩

end

/-! ### Resolving raises at negative addresses only -/

theorem resolveValue_error {i : Fin 4} {p : ValueParam} {s : State} {x : Raise}
    (h : resolveValue i p s = .error x) : x = ⟨.negativeAddress, i⟩ := by
  rcases resolveValue_cases i p s with ⟨_, h'⟩ | ⟨_, _, ⟨_, h'⟩ | ⟨_, h'⟩⟩ <;> cases h'.symm.trans h
  rfl

theorem resolveAddr_error {i : Fin 4} {p : WriteParam} {s : State} {x : Raise}
    (h : resolveAddr i p s = .error x) : x = ⟨.negativeAddress, i⟩ := by
  rcases resolveAddr_cases i p s with ⟨_, _, ⟨_, h'⟩ | ⟨_, h'⟩⟩ <;> cases h'.symm.trans h
  rfl

/-- Under `ADDRESS` a legal target is a write parameter (30_encoding.md R78). -/
theorem resolveTarget_eq_resolveAddr {p : ValueParam} {s : State} (hlegal : p.legalTarget s.cfg = true)
    (hj : s.cfg.jumpTarget = .address) :
    ∃ q, resolveTarget p s = (resolveAddr 2 q s).map Int.ofNat := by
  obtain ⟨m, hm⟩ := exists_toMode_eq (legalTarget_iff.mp hlegal hj)
  exact ⟨_, resolveTarget_of_address hj hm.symm⟩

theorem resolveTarget_error {p : ValueParam} {s : State} {x : Raise} (hlegal : p.legalTarget s.cfg = true)
    (h : resolveTarget p s = .error x) : x = ⟨.negativeAddress, 2⟩ := by
  cases hj : s.cfg.jumpTarget with
  | value =>
    rw [resolveTarget_of_value hj] at h
    exact resolveValue_error (eq_error_of_map_eq_error h)
  | address =>
    obtain ⟨q, hq⟩ := resolveTarget_eq_resolveAddr hlegal hj
    exact resolveAddr_error (eq_error_of_map_eq_error (hq.symm.trans h))

/-- An address is never negative, so a negative target is a value (43_jumps.md R114, R115). -/
theorem jumpTarget_of_resolveTarget_neg {p : ValueParam} {s : State} {g : Int}
    (hlegal : p.legalTarget s.cfg = true) (h : resolveTarget p s = .ok g) (hg : g < 0) :
    s.cfg.jumpTarget = .value := by
  cases hj : s.cfg.jumpTarget with
  | value => rfl
  | address =>
    obtain ⟨q, hq⟩ := resolveTarget_eq_resolveAddr hlegal hj
    obtain ⟨d, -, rfl⟩ := exists_of_map_eq_ok (hq.symm.trans h)
    exact absurd hg (Int.natCast_nonneg d).not_gt

/-- A raise at the negative address of one of the first `n` parameters (20_memory.md R50). -/
def NegativeAddressUpTo (n : Nat) (x : Raise) : Prop :=
  ∃ p : Fin 4, x = ⟨.negativeAddress, p⟩ ∧ 1 ≤ p.val ∧ p.val ≤ n

theorem resolveThree_error {a b : ValueParam} {dst : WriteParam} {s : State} {x : Raise}
    (h : resolveThree a b dst s = .error x) : NegativeAddressUpTo 3 x := by
  rcases eq_error_or_exists_of_bind_eq_error h with ha | ⟨_, -, h⟩
  · exact ⟨1, resolveValue_error ha, by decide⟩
  rcases eq_error_or_exists_of_bind_eq_error h with hb | ⟨_, -, h⟩
  · exact ⟨2, resolveValue_error hb, by decide⟩
  rcases eq_error_or_exists_of_bind_eq_error h with hdst | ⟨_, -, h⟩
  · exact ⟨3, resolveAddr_error hdst, by decide⟩
  · cases h

theorem resolveJump_error {cond target : ValueParam} {s : State} {x : Raise}
    (hlegal : target.legalTarget s.cfg = true) (h : resolveJump cond target s = .error x) :
    NegativeAddressUpTo 2 x := by
  rw [resolveJump, if_pos hlegal] at h
  rcases eq_error_or_exists_of_bind_eq_error h with hcond | ⟨_, -, h⟩
  · exact ⟨1, resolveValue_error hcond, by decide⟩
  rcases eq_error_or_exists_of_bind_eq_error h with htarget | ⟨_, -, h⟩
  · exact ⟨2, resolveTarget_error hlegal htarget, by decide⟩
  · cases h

theorem resolveInstr_error {i : Instr} {s : State} {x : Raise} (hwf : i.wellFormed s.cfg = true)
    (h : resolveInstr s i = .error x) : NegativeAddressUpTo (paramsOf i).length x := by
  cases i with
  | add a b dst | mul a b dst | lessThan a b dst | equals a b dst =>
    exact resolveThree_error (eq_error_of_map_eq_error h)
  | jumpIfTrue cond target | jumpIfFalse cond target =>
    exact resolveJump_error hwf (eq_error_of_map_eq_error h)
  | input dst => exact ⟨1, resolveAddr_error (eq_error_of_map_eq_error h), le_rfl, le_rfl⟩
  | output a | adjustBase a => exact ⟨1, resolveValue_error (eq_error_of_map_eq_error h), le_rfl, le_rfl⟩
  | halt => cases h

/-! ### The table of faults -/

/-- The range rule's one raise names no parameter (00_scope.md R12). -/
theorem arith_error {c : Config} {v : Int} {x : Raise} (h : arith c v = .error x) :
    x = ⟨.arithOverflow, 0⟩ := by
  rcases arith_cases c v with ⟨_, h'⟩ | ⟨_, _, h'⟩ | ⟨_, _, h'⟩ <;> cases h'.symm.trans h
  rfl

theorem jumpEffects_error {taken : Bool} {g : Int} {s : State} {x : Raise}
    (h : jumpEffects taken g s = .error x) : g < 0 ∧ x = ⟨.negativeJumpTarget, 2⟩ := by
  unfold jumpEffects at h
  split_ifs at h with _ hg
  cases h
  exact ⟨hg, rfl⟩

/-- Whether the table allows the raise `x` to the instruction `i` (60_exceptions.md R123). -/
def AllowedRaise (c : Config) (i : Instr) (x : Raise) : Prop :=
  mayRaise c.jumpTarget i x.code x.param = true

/-- A negative address is allowed at each parameter the instruction has. -/
theorem NegativeAddressUpTo.allowed {c : Config} {i : Instr} {x : Raise}
    (h : NegativeAddressUpTo (paramsOf i).length x) : AllowedRaise c i x := by
  obtain ⟨p, rfl, hp⟩ := h
  exact decide_eq_true hp

/-- A taken jump to a negative target raises, which only `VALUE` makes possible, as the table says. -/
theorem jumpEffects_error_allowed {cond target : ValueParam} {s : State} {c : Word} {g : Int} {taken : Bool}
    {x : Raise} {i : Instr} (hi : i = .jumpIfTrue cond target ∨ i = .jumpIfFalse cond target)
    (hr : resolveJump cond target s = .ok (c, g)) (h : jumpEffects taken g s = .error x) :
    AllowedRaise s.cfg i x := by
  obtain ⟨hlegal, -, htarget⟩ := resolveJump_ok_iff.mp hr
  obtain ⟨hg, rfl⟩ := jumpEffects_error h
  have hj := jumpTarget_of_resolveTarget_neg hlegal htarget hg
  rcases hi with rfl | rfl <;> simp [AllowedRaise, mayRaise, hj]

/-- EXECUTE raises in the range rule and at a jump's target only. -/
theorem effects_error_allowed {i : Instr} {s : State} {r : Resolved} {x : Raise}
    (hr : resolveInstr s i = .ok r) (h : r.effects s = .error x) : AllowedRaise s.cfg i x := by
  cases i with
  | add a b dst | mul a b dst | adjustBase a =>
    obtain ⟨_, -, rfl⟩ := exists_of_map_eq_ok hr
    obtain rfl := arith_error (eq_error_of_map_eq_error h)
    rfl
  | jumpIfTrue cond target =>
    obtain ⟨_, hjump, rfl⟩ := exists_of_map_eq_ok hr
    exact jumpEffects_error_allowed (.inl rfl) hjump h
  | jumpIfFalse cond target =>
    obtain ⟨_, hjump, rfl⟩ := exists_of_map_eq_ok hr
    exact jumpEffects_error_allowed (.inr rfl) hjump h
  | input dst =>
    obtain ⟨d, -, rfl⟩ := exists_of_map_eq_ok hr
    obtain ⟨e, _, he, -⟩ := inputEffects_write d s
    cases he.symm.trans h
  | output a | lessThan a b dst | equals a b dst =>
    obtain ⟨_, -, rfl⟩ := exists_of_map_eq_ok hr
    cases h
  | halt =>
    cases hr
    cases h

theorem effectsOf_error_allowed {i : Instr} {s : State} {x : Raise} (hwf : i.wellFormed s.cfg = true)
    (h : effectsOf i s = .error x) : AllowedRaise s.cfg i x := by
  rcases eq_error_or_exists_of_bind_eq_error h with hresolve | ⟨r, hr, heffects⟩
  · exact (resolveInstr_error hwf hresolve).allowed
  · exact effects_error_allowed hr heffects

/-- Only an instruction that stores has a write to check, and its index is the table's. -/
theorem capacityExceeded_allowed {c : Config} {i : Instr} {s : State} {e : Effects} {w : PendingWrite}
    (h : effectsOf i s = .ok e) (hw : e.write = some w) :
    AllowedRaise c i ⟨.capacityExceeded, w.param⟩ := by
  rcases effectsOf_ok h with ⟨hop, _, _, rfl⟩ | ⟨_, _, _, _, rfl, _, rfl⟩ | ⟨_, _, rfl, _, rfl⟩ |
    ⟨_, _, _, rfl⟩ | ⟨_, _, _, rfl | ⟨_, _, _, _, rfl⟩⟩ | ⟨_, _, _, rfl⟩ | ⟨_, rfl⟩ <;> cases hw
  · cases i with
    | add | mul | lessThan | equals => rfl
    | input | output | jumpIfTrue | jumpIfFalse | adjustBase | halt => simp [Instr.opcode] at hop
  · rfl
  · rfl

/-- Settles O34: the fault is a raise of RESOLVE or EXECUTE, or of the capacity check, and the table
allows each. -/
theorem instructionsRaiseOnlyTheTablesFaults : Obligations.InstructionsRaiseOnlyTheTablesFaults := by
  intro i s t r hwf hnone hexec hfault
  rcases exec_cases i s with ⟨e, _, _, h⟩ | ⟨x, h, hraise⟩ <;> cases h.symm.trans hexec
  · simp [hnone] at hfault
  · cases hfault
    rcases hraise with hraise | ⟨e, w, he, hw, _, rfl⟩
    · exact effectsOf_error_allowed hwf hraise
    · exact capacityExceeded_allowed he hw

/-! ### Fault entry -/

/-- A step of a running core answers a fault record only by taking a raise. -/
theorem eq_takeFault_of_step {s t : State} {r : FaultRecord} (hrun : s.Running) (h : step s = .next t)
    (hfault : t.fault = some r) : ∃ x, t = takeFault x s := by
  obtain ⟨hh, hf⟩ := hrun
  rcases step_next_cases h with ⟨hstopped, -⟩ | ⟨-, x, -, ht⟩ | ⟨-, i, e, -, -, -, rfl⟩
  · simp [hh, hf] at hstopped
  · exact ⟨x, ht⟩
  · simp [hf] at hfault

/-- Settles O37: `takeFault` writes the record and leaves BUSY, so the loop of STEP stops after it. -/
theorem faultEntryWritesTheRecordOnly : Obligations.FaultEntryWritesTheRecordOnly := by
  intro s t r hrun hstep hfault
  obtain ⟨x, rfl⟩ := eq_takeFault_of_step hrun hstep hfault
  cases hfault
  refine ⟨rfl, rfl, rfl, rfl, fun budget => ?_⟩
  rw [stepTransaction_succ budget hstep, stepResponse_of_fault (Option.some_ne_none _)]
  rfl

/-- Settles O36: a decoder's raise is taken as it is. -/
theorem stepTakesTheDecodersFault : Obligations.StepTakesTheDecodersFault :=
  fun _ _ hrun hdecode => step_of_fetchDecode_error hrun hdecode

end Sys2Proof.Machine
end

section
/-!
PROOFS. LOAD (70_reset_and_hazards.md R141, R142): the reset state of an image, and the first step
from it.
-/

namespace Sys2Proof.Machine

/-! ### When LOAD answers OK -/

theorem command_load_of_not_busy (budget : Nat) (image : List Word) {s : State} (hb : s.control ≠ .busy) :
    command budget (.load image) s = .next (loadCommand image s) :=
  if_neg hb

theorem loadCommand_of_fits {image : List Word} {s : State} (hlen : image.length ≤ s.cfg.memCapacity) :
    loadCommand image s = (loaded s.cfg image, .ok) :=
  if_neg hlen.not_gt

/-- A LOAD that answers OK has left the reset state of its image: BUSY and an image that is too long
have other answers. -/
theorem eq_loaded_of_load_ok {budget : Nat} {image : List Word} {s t : State}
    (h : command budget (.load image) s = .next (t, .ok)) : t = loaded s.cfg image := by
  by_cases hb : s.control = .busy
  · rw [command, if_pos hb] at h
    cases h
  · rw [command_load_of_not_busy budget image hb] at h
    by_cases hlen : image.length ≤ s.cfg.memCapacity
    · rw [loadCommand_of_fits hlen] at h
      cases h
      rfl
    · rw [loadCommand, if_pos (not_le.mp hlen)] at h
      cases h

/-! ### The reset state of an image -/

/-- The words of the image from 0 on, and 0 past its end (70_reset_and_hazards.md R141; 20_memory.md
R47). -/
theorem memRead_loaded (c : Config) (image : List Word) (a : Nat) :
    memRead (loaded c image) a = image.getD a 0 := by
  by_cases ha : a < image.length
  · calc memRead (loaded c image) a
        = (Memory.ofImage 0 image).lookup a := if_pos ha
      _ = image.getD a 0 := by simpa only [Nat.zero_add] using lookup_ofImage 0 a image
  · have hle : image.length ≤ a := not_lt.mp ha
    rw [memRead_of_le hle, List.getD_eq_default _ _ hle]

theorem running_loaded (c : Config) (image : List Word) : (loaded c image).Running :=
  ⟨rfl, rfl⟩

/-- Settles O2: an image that fits is loaded, and its words are read back; the registers are those of
the reset state by definition. -/
theorem loadEntersTheResetStateOfItsImage : Obligations.LoadEntersTheResetStateOfItsImage := by
  intro budget image s hb hlen
  refine ⟨loaded s.cfg image, ?_, fun a => ?_, rfl, rfl, rfl⟩
  · rw [command_load_of_not_busy budget image hb, loadCommand_of_fits hlen]
  · rw [memRead_loaded]
    split
    next ha => exact List.getD_eq_getElem _ _ ha
    next ha => exact List.getD_eq_default _ _ (not_lt.mp ha)

/-! ### The first step after LOAD -/

/-- `ip` is 0 after LOAD, so the instruction stream at `ip` is the image. -/
theorem fetchWords_loaded (c : Config) (image : List Word) :
    fetchWords (loaded c image) = fun k => image.getD k 0 := by
  funext k
  have hip : fetchWords (loaded c image) k = memRead (loaded c image) (0 + k) := rfl
  rw [hip, Nat.zero_add, memRead_loaded]

theorem fetchDecode_loaded (c : Config) (image : List Word) :
    fetchDecode (loaded c image) = decode c (fun k => image.getD k 0) := by
  rw [fetchDecode, fetchWords_loaded]
  rfl

/-- The record a fault takes after LOAD holds address 0 and the image's first word. -/
theorem takeFault_loaded (x : Raise) (c : Config) (image : List Word) :
    takeFault x (loaded c image) =
      { loaded c image with fault := some ⟨x.code, x.param, 0, image.getD 0 0⟩, busy := false } := by
  have hword : memRead (loaded c image) (loaded c image).ip = image.getD 0 0 := memRead_loaded c image 0
  rw [takeFault, hword]
  rfl

/-- Settles O4: the loaded core runs, and what it decodes at `ip` is the image. -/
theorem loadedProgramStartsAtAddressZero : Obligations.LoadedProgramStartsAtAddressZero := by
  intro budget image s t h
  obtain rfl := eq_loaded_of_load_ok h
  have hrun := running_loaded s.cfg image
  have hdecode := fetchDecode_loaded s.cfg image
  refine ⟨fun i hi => step_of_fetchDecode_ok hrun (hdecode.trans hi), fun x hx => ?_⟩
  rw [step_of_fetchDecode_error hrun (hdecode.trans hx), takeFault_loaded]

end Sys2Proof.Machine
end
